-- ==== Sys2Proof/Word.lean ====
section
/-! DEFINITION. The word types of the CHIP-8_CPP core (00_scope.md R6, R9). Every value is unsigned; `+`, `-` on a
`BitVec` are the spec's `wrap8` and `wrap16` (R9), and nothing is ever sign-extended. -/

namespace Sys2Proof

/-- An 8-bit value: a general register, a timer, a memory byte (10_state.md R20, R27; 20_memory.md R50). -/
abbrev Byte := BitVec 8

/-- A 16-bit value: PC, I, a call-stack entry, an instruction word (00_scope.md R6; 30_encoding.md R70). -/
abbrev Word := BitVec 16

/-- A 4-bit field: a register selector or the height nibble (30_encoding.md R71). -/
abbrev Nibble := BitVec 4

/-- A 12-bit address field `nnn` (30_encoding.md R71). -/
abbrev Addr12 := BitVec 12

end Sys2Proof
end

