-- ==== Sys2Proof/Syntax.lean ====
section
/-! DEFINITION. The 35 handler kinds of 30_encoding.md R81 as one inductive type, one constructor per row of
spec/opcode_table.json (the four fallback rows share the mnemonic NOP), with the fields of R71 each format names (R72).
The bits a handler does not read (R79) are kept as `ign`, so that an instruction still determines its word: the fault latch
records the word as fetched (60_exceptions.md R221; log 8). -/

namespace Sys2Proof

/-- An instruction. `x`, `y` are register selectors, `kk` the immediate byte, `n` the height nibble, `nnn` the address,
`ign` the bits the handler ignores. -/
inductive Instr where
  /-- NOP, the no-op space (30_encoding.md R80, 40_cycle_dispatch.md R98), with its whole word. -/
  | nop (w : Word)
  /-- CLS, `0ab0` (45_display.md R202). -/
  | cls (ign : Byte)
  /-- RET, `0abE` (41_control_flow.md R111). -/
  | ret (ign : Byte)
  /-- JP addr, `1nnn` (R112). -/
  | jp (nnn : Addr12)
  /-- CALL addr, `2nnn` (R113). -/
  | call (nnn : Addr12)
  /-- SE Vx, byte, `3xkk` (R115). -/
  | seImm (x : Nibble) (kk : Byte)
  /-- SNE Vx, byte, `4xkk` (R116). -/
  | sneImm (x : Nibble) (kk : Byte)
  /-- SE Vx, Vy, `5xy?` (R117). -/
  | seReg (x y ign : Nibble)
  /-- LD Vx, byte, `6xkk` (42_alu.md R132). -/
  | ldImm (x : Nibble) (kk : Byte)
  /-- ADD Vx, byte, `7xkk` (R133). -/
  | addImm (x : Nibble) (kk : Byte)
  /-- LD Vx, Vy, `8xy0` (R134). -/
  | ldReg (x y : Nibble)
  /-- OR Vx, Vy, `8xy1` (R135). -/
  | orReg (x y : Nibble)
  /-- AND Vx, Vy, `8xy2` (R136). -/
  | andReg (x y : Nibble)
  /-- XOR Vx, Vy, `8xy3` (R137). -/
  | xorReg (x y : Nibble)
  /-- ADD Vx, Vy, `8xy4` (R138). -/
  | addReg (x y : Nibble)
  /-- SUB Vx, Vy, `8xy5` (R139). -/
  | sub (x y : Nibble)
  /-- SHR Vx, `8x?6` (R141). -/
  | shr (x ign : Nibble)
  /-- SUBN Vx, Vy, `8xy7` (R140). -/
  | subn (x y : Nibble)
  /-- SHL Vx, `8x?E` (R142). -/
  | shl (x ign : Nibble)
  /-- SNE Vx, Vy, `9xy?` (41_control_flow.md R118). -/
  | sneReg (x y ign : Nibble)
  /-- LD I, addr, `Annn` (43_memory_transfer.md R160). -/
  | ldI (nnn : Addr12)
  /-- JP V0, addr, `Bnnn` (41_control_flow.md R114). -/
  | jpV0 (nnn : Addr12)
  /-- RND Vx, byte, `Cxkk` (42_alu.md R143). -/
  | rnd (x : Nibble) (kk : Byte)
  /-- DRW Vx, Vy, nibble, `Dxyn` (45_display.md R200). -/
  | drw (x y n : Nibble)
  /-- SKP Vx, `Ex?E` (44_timers_input.md R183). -/
  | skp (x ign : Nibble)
  /-- SKNP Vx, `Ex?1` (R184). -/
  | sknp (x ign : Nibble)
  /-- LD Vx, DT, `Fx07` (R180). -/
  | ldVxDt (x : Nibble)
  /-- LD Vx, K, `Fx0A` (R185). -/
  | ldVxK (x : Nibble)
  /-- LD DT, Vx, `Fx15` (R181). -/
  | ldDtVx (x : Nibble)
  /-- LD ST, Vx, `Fx18` (R182). -/
  | ldStVx (x : Nibble)
  /-- ADD I, Vx, `Fx1E` (43_memory_transfer.md R161). -/
  | addI (x : Nibble)
  /-- LD F, Vx, `Fx29` (R165). -/
  | ldF (x : Nibble)
  /-- LD B, Vx, `Fx33` (R164). -/
  | ldB (x : Nibble)
  /-- LD [I], Vx, `Fx55` (R162). -/
  | ldMemVx (x : Nibble)
  /-- LD Vx, [I], `Fx65` (R163). -/
  | ldVxMem (x : Nibble)
  deriving DecidableEq, Repr

end Sys2Proof
end

