-- ==== Sys2Proof/Decode.lean ====
section
/-! DEFINITION. Decoding and encoding (30_encoding.md R70 to R81; 40_cycle_dispatch.md R93 to R95). -/

namespace Sys2Proof

/-! ## Fields of a word (30_encoding.md R71) -/

/-- `F` = w[15:12], the family. -/
def famOf (w : Word) : Nibble := w.extractLsb' 12 4
/-- `x` = w[11:8]. -/
def xOf (w : Word) : Nibble := w.extractLsb' 8 4
/-- `y` = w[7:4]. -/
def yOf (w : Word) : Nibble := w.extractLsb' 4 4
/-- `n` = w[3:0]. -/
def nOf (w : Word) : Nibble := w.extractLsb' 0 4
/-- `kk` = w[7:0]. -/
def kkOf (w : Word) : Byte := w.extractLsb' 0 8
/-- `nnn` = w[11:0]. -/
def nnnOf (w : Word) : Addr12 := w.extractLsb' 0 12
/-- w[11:4], the bits family 0 ignores (30_encoding.md R75). -/
def midOf (w : Word) : Byte := w.extractLsb' 4 8

/-! ## Bytes and words -/

/-- The word of a high and a low byte, `{hi, lo}` (00_scope.md R9; big-endian, 20_memory.md R53). -/
def wordOfBytes (hi lo : Byte) : Word := hi ++ lo

/-- A word as it lies in memory: the high byte at the lower address (20_memory.md R53, 30_encoding.md R70). -/
def bytesOfWord (w : Word) : List Byte := [w.extractLsb' 8 8, w.extractLsb' 0 8]

/-! ## The two-level dispatch tables (30_encoding.md R74 to R78) -/

/-- Family 0, keyed on n (30_encoding.md R75). -/
def decode0 (w : Word) : Instr :=
  match nOf w with
  | 0x0#4 => .cls (midOf w)
  | 0xE#4 => .ret (midOf w)
  | _ => .nop w

/-- Family 8, keyed on n (30_encoding.md R76). -/
def decode8 (w : Word) : Instr :=
  match nOf w with
  | 0x0#4 => .ldReg (xOf w) (yOf w)
  | 0x1#4 => .orReg (xOf w) (yOf w)
  | 0x2#4 => .andReg (xOf w) (yOf w)
  | 0x3#4 => .xorReg (xOf w) (yOf w)
  | 0x4#4 => .addReg (xOf w) (yOf w)
  | 0x5#4 => .sub (xOf w) (yOf w)
  | 0x6#4 => .shr (xOf w) (yOf w)
  | 0x7#4 => .subn (xOf w) (yOf w)
  | 0xE#4 => .shl (xOf w) (yOf w)
  | _ => .nop w

/-- Family E, keyed on n; w[7:4] ignored (30_encoding.md R77). -/
def decodeE (w : Word) : Instr :=
  match nOf w with
  | 0xE#4 => .skp (xOf w) (yOf w)
  | 0x1#4 => .sknp (xOf w) (yOf w)
  | _ => .nop w

/-- Family F, keyed on kk (30_encoding.md R78). -/
def decodeF (w : Word) : Instr :=
  match kkOf w with
  | 0x07#8 => .ldVxDt (xOf w)
  | 0x0A#8 => .ldVxK (xOf w)
  | 0x15#8 => .ldDtVx (xOf w)
  | 0x18#8 => .ldStVx (xOf w)
  | 0x1E#8 => .addI (xOf w)
  | 0x29#8 => .ldF (xOf w)
  | 0x33#8 => .ldB (xOf w)
  | 0x55#8 => .ldMemVx (xOf w)
  | 0x65#8 => .ldVxMem (xOf w)
  | _ => .nop w

/-- `Dispatch(w)`: the first level selects on F (30_encoding.md R74, 40_cycle_dispatch.md R93). It is total on the 65536
words (R95): no word is illegal (30_encoding.md R80). -/
def decodeWord (w : Word) : Instr :=
  match famOf w with
  | 0x0#4 => decode0 w
  | 0x1#4 => .jp (nnnOf w)
  | 0x2#4 => .call (nnnOf w)
  | 0x3#4 => .seImm (xOf w) (kkOf w)
  | 0x4#4 => .sneImm (xOf w) (kkOf w)
  | 0x5#4 => .seReg (xOf w) (yOf w) (nOf w)
  | 0x6#4 => .ldImm (xOf w) (kkOf w)
  | 0x7#4 => .addImm (xOf w) (kkOf w)
  | 0x8#4 => decode8 w
  | 0x9#4 => .sneReg (xOf w) (yOf w) (nOf w)
  | 0xA#4 => .ldI (nnnOf w)
  | 0xB#4 => .jpV0 (nnnOf w)
  | 0xC#4 => .rnd (xOf w) (kkOf w)
  | 0xD#4 => .drw (xOf w) (yOf w) (nOf w)
  | 0xE#4 => decodeE w
  | _ => decodeF w

/-- Why bytes do not decode. Every two bytes decode (30_encoding.md R80), so the one reason is that there are fewer. -/
inductive DecodeError where
  /-- Fewer than the two bytes every instruction has (30_encoding.md R70). -/
  | truncated
  deriving DecidableEq, Repr

/-- Decode the instruction at the front of a byte sequence and give the rest back: exactly two bytes are consumed
(30_encoding.md R70). -/
def decode : List Byte → Except DecodeError (Instr × List Byte)
  | hi :: lo :: rest => .ok (decodeWord (wordOfBytes hi lo), rest)
  | [_] => .error .truncated
  | [] => .error .truncated

/-- The word of an opcode-table row's bits (bit 0 the least significant); bits above `nbits` are 0. -/
def tableWord (nbits w : Nat) : Word := BitVec.ofNat 16 (w % 2 ^ nbits)

/-- The instruction the decoder reads from the table word `w` of `nbits` bits, laid out as the hardware stores it. -/
def decodeTableWord (nbits w : Nat) : Option Instr :=
  match decode (bytesOfWord (tableWord nbits w)) with
  | .ok (i, _) => some i
  | .error _ => none

/-! ## The encoder -/

/-- The word of an instruction, from the layouts and keys of 30_encoding.md R72 to R79. -/
def encode : Instr → Word
  | .nop w => w
  | .cls ign => 0x0#4 ++ ign ++ 0x0#4
  | .ret ign => 0x0#4 ++ ign ++ 0xE#4
  | .jp nnn => 0x1#4 ++ nnn
  | .call nnn => 0x2#4 ++ nnn
  | .seImm x kk => 0x3#4 ++ x ++ kk
  | .sneImm x kk => 0x4#4 ++ x ++ kk
  | .seReg x y ign => 0x5#4 ++ x ++ y ++ ign
  | .ldImm x kk => 0x6#4 ++ x ++ kk
  | .addImm x kk => 0x7#4 ++ x ++ kk
  | .ldReg x y => 0x8#4 ++ x ++ y ++ 0x0#4
  | .orReg x y => 0x8#4 ++ x ++ y ++ 0x1#4
  | .andReg x y => 0x8#4 ++ x ++ y ++ 0x2#4
  | .xorReg x y => 0x8#4 ++ x ++ y ++ 0x3#4
  | .addReg x y => 0x8#4 ++ x ++ y ++ 0x4#4
  | .sub x y => 0x8#4 ++ x ++ y ++ 0x5#4
  | .shr x ign => 0x8#4 ++ x ++ ign ++ 0x6#4
  | .subn x y => 0x8#4 ++ x ++ y ++ 0x7#4
  | .shl x ign => 0x8#4 ++ x ++ ign ++ 0xE#4
  | .sneReg x y ign => 0x9#4 ++ x ++ y ++ ign
  | .ldI nnn => 0xA#4 ++ nnn
  | .jpV0 nnn => 0xB#4 ++ nnn
  | .rnd x kk => 0xC#4 ++ x ++ kk
  | .drw x y n => 0xD#4 ++ x ++ y ++ n
  | .skp x ign => 0xE#4 ++ x ++ ign ++ 0xE#4
  | .sknp x ign => 0xE#4 ++ x ++ ign ++ 0x1#4
  | .ldVxDt x => 0xF#4 ++ x ++ 0x07#8
  | .ldVxK x => 0xF#4 ++ x ++ 0x0A#8
  | .ldDtVx x => 0xF#4 ++ x ++ 0x15#8
  | .ldStVx x => 0xF#4 ++ x ++ 0x18#8
  | .addI x => 0xF#4 ++ x ++ 0x1E#8
  | .ldF x => 0xF#4 ++ x ++ 0x29#8
  | .ldB x => 0xF#4 ++ x ++ 0x33#8
  | .ldMemVx x => 0xF#4 ++ x ++ 0x55#8
  | .ldVxMem x => 0xF#4 ++ x ++ 0x65#8

/-- An instruction as it lies in memory. -/
def encodeBytes (i : Instr) : List Byte := bytesOfWord (encode i)

/-! ## The no-op space (30_encoding.md R80) -/

/-- Whether a word lies in the no-op space: a family 0, 8, E or F word whose second-level key R75 to R78 do not list. -/
def isNoopWord (w : Word) : Bool :=
  match famOf w with
  | 0x0#4 => !([0x0#4, 0xE#4].contains (nOf w))
  | 0x8#4 => !([0x0#4, 0x1#4, 0x2#4, 0x3#4, 0x4#4, 0x5#4, 0x6#4, 0x7#4, 0xE#4].contains (nOf w))
  | 0xE#4 => !([0x1#4, 0xE#4].contains (nOf w))
  | 0xF#4 => !([0x07#8, 0x0A#8, 0x15#8, 0x18#8, 0x1E#8, 0x29#8, 0x33#8, 0x55#8, 0x65#8].contains (kkOf w))
  | _ => false

/-- The spec's number of the instruction's handler kind (30_encoding.md R81). -/
def kindNumber : Instr → Nat
  | .nop _ => 0
  | .cls _ => 1
  | .ret _ => 2
  | .jp _ => 3
  | .call _ => 4
  | .seImm _ _ => 5
  | .sneImm _ _ => 6
  | .seReg _ _ _ => 7
  | .ldImm _ _ => 8
  | .addImm _ _ => 9
  | .ldReg _ _ => 10
  | .orReg _ _ => 11
  | .andReg _ _ => 12
  | .xorReg _ _ => 13
  | .addReg _ _ => 14
  | .sub _ _ => 15
  | .shr _ _ => 16
  | .subn _ _ => 17
  | .shl _ _ => 18
  | .sneReg _ _ _ => 19
  | .ldI _ => 20
  | .jpV0 _ => 21
  | .rnd _ _ => 22
  | .drw _ _ _ => 23
  | .skp _ _ => 24
  | .sknp _ _ => 25
  | .ldVxDt _ => 26
  | .ldVxK _ => 27
  | .ldDtVx _ => 28
  | .ldStVx _ => 29
  | .addI _ => 30
  | .ldF _ => 31
  | .ldB _ => 32
  | .ldMemVx _ => 33
  | .ldVxMem _ => 34

/-! ## The opcode table (spec/opcode_table.json) -/

/-- The rows (match, mask, kind number) of families 0 to 9 that are no fallback rows. -/
def opcodeRowsLow : List (Word × Word × Nat) :=
  [(0x0000, 0xF00F, 1), (0x000E, 0xF00F, 2), (0x1000, 0xF000, 3), (0x2000, 0xF000, 4),
   (0x3000, 0xF000, 5), (0x4000, 0xF000, 6), (0x5000, 0xF000, 7), (0x6000, 0xF000, 8),
   (0x7000, 0xF000, 9), (0x8000, 0xF00F, 10), (0x8001, 0xF00F, 11), (0x8002, 0xF00F, 12),
   (0x8003, 0xF00F, 13), (0x8004, 0xF00F, 14), (0x8005, 0xF00F, 15), (0x8006, 0xF00F, 16),
   (0x8007, 0xF00F, 17), (0x800E, 0xF00F, 18), (0x9000, 0xF000, 19)]

/-- The rows of families A to F that are no fallback rows. -/
def opcodeRowsHigh : List (Word × Word × Nat) :=
  [(0xA000, 0xF000, 20), (0xB000, 0xF000, 21), (0xC000, 0xF000, 22), (0xD000, 0xF000, 23),
   (0xE00E, 0xF00F, 24), (0xE001, 0xF00F, 25), (0xF007, 0xF0FF, 26), (0xF00A, 0xF0FF, 27),
   (0xF015, 0xF0FF, 28), (0xF018, 0xF0FF, 29), (0xF01E, 0xF0FF, 30), (0xF029, 0xF0FF, 31),
   (0xF033, 0xF0FF, 32), (0xF055, 0xF0FF, 33), (0xF065, 0xF0FF, 34)]

/-- The opcode table's 34 instruction rows: a word of row (match, mask, kind) is one with `w &&& mask = match`. The decoder
is not made from it: that the two agree is a statement. -/
def opcodeRows : List (Word × Word × Nat) := opcodeRowsLow ++ opcodeRowsHigh

end Sys2Proof
end

