-- ==== Sys2Proof/Config.lean ====
section
/-! DEFINITION. The block's parameters (00_scope.md R6, R7) and its one free input, the RND byte (60_exceptions.md R236).
The parameters' defaults stand in Machine/Params.lean. -/

namespace Sys2Proof

/-- What an address or a key number out of range does: the parameter `OOB_POLICY` (00_scope.md R6, R11; 93 U1, U7). -/
inductive OobPolicy where
  /-- Reduce modulo the size (the spec's default). -/
  | wrap
  /-- Raise ADDR_RANGE or KEY_RANGE. -/
  | fault
  deriving DecidableEq, Repr

/-- The parameters a model takes (00_scope.md R7). They are fixed for a machine and are not state (10_state.md R33). -/
structure Config where
  /-- `FB_W`, the framebuffer's width in pixels. -/
  fbW : Nat
  /-- `FB_H`, the framebuffer's height in pixels. -/
  fbH : Nat
  /-- `LOAD_BASE`, the load address and reset vector. -/
  loadBase : Nat
  /-- `FONT_BASE`, where the glyph table starts. -/
  fontBase : Nat
  /-- `OOB_POLICY`. -/
  oob : OobPolicy
  deriving DecidableEq, Repr

/-- `MEM_SIZE`, 4096 bytes (00_scope.md R6). -/
def memSize : Nat := 4096

/-- `GLYPH_ROWS`, bytes per glyph (00_scope.md R6). -/
def glyphRows : Nat := 5

/-- `FONT_BYTES` = 16 x `GLYPH_ROWS` (00_scope.md R6). -/
def fontBytes : Nat := 16 * glyphRows

/-- `MAX_IMAGE` = `MEM_SIZE - LOAD_BASE` (00_scope.md R6). -/
def Config.maxImage (c : Config) : Nat := memSize - c.loadBase

/-- The constraints the parameters must meet (00_scope.md R7). -/
abbrev Config.Legal (c : Config) : Prop :=
  c.fontBase + fontBytes ≤ c.loadBase ∧ c.loadBase ≤ memSize ∧ 1 ≤ c.fbW ∧ 1 ≤ c.fbH

/-- The k-th RND byte drawn: a FREE VALUE with no body, so nothing can be proved of any particular draw
(60_exceptions.md R236, 93 U5; log 2). -/
opaque Config.randomByte : Nat → Byte

end Sys2Proof
end

