-- ==== Sys2Proof/Machine/Params.lean ====
section
/-! DEFINITION. The default values of the parameters (00_scope.md R6; 92 D2 to D5) and the glyph table's bytes
(20_memory.md R58). -/

namespace Sys2Proof.Machine

/-- The parameters `step` and `exec` run with: the spec's defaults (00_scope.md R6; log 4). -/
def defaults : Config :=
  { fbW := 64, fbH := 32, loadBase := 0x200, fontBase := 0x050, oob := .wrap }

/-- Glyphs 0 to 7, five bytes each, row 0 first (20_memory.md R58). -/
def glyphsLow : List Byte :=
  [0xF0, 0x90, 0x90, 0x90, 0xF0,  0x20, 0x60, 0x20, 0x20, 0x70,
   0xF0, 0x10, 0xF0, 0x80, 0xF0,  0xF0, 0x10, 0xF0, 0x10, 0xF0,
   0x90, 0x90, 0xF0, 0x10, 0x10,  0xF0, 0x80, 0xF0, 0x10, 0xF0,
   0xF0, 0x80, 0xF0, 0x90, 0xF0,  0xF0, 0x10, 0x20, 0x40, 0x40]

/-- Glyphs 8 to F (20_memory.md R58). -/
def glyphsHigh : List Byte :=
  [0xF0, 0x90, 0xF0, 0x90, 0xF0,  0xF0, 0x90, 0xF0, 0x10, 0xF0,
   0xF0, 0x90, 0xF0, 0x90, 0x90,  0xE0, 0x90, 0xE0, 0x90, 0xE0,
   0xF0, 0x80, 0x80, 0x80, 0xF0,  0xE0, 0x90, 0x90, 0x90, 0xE0,
   0xF0, 0x80, 0xF0, 0x80, 0xF0,  0xF0, 0x80, 0xF0, 0x80, 0x80]

/-- The 80 bytes of the glyph table: glyph d is bytes 5d to 5d + 4 (20_memory.md R58). -/
def glyphTable : List Byte := glyphsLow ++ glyphsHigh

/-- The byte memory holds at address a right after reset: the glyph table at `FONT_BASE`, zero elsewhere
(20_memory.md R57; 70_reset_and_hazards.md R250). It is what an unlisted address of `State.mem` reads as (log 9). -/
def resetByte (c : Config) (a : Nat) : Byte :=
  if c.fontBase ≤ a then glyphTable.getD (a - c.fontBase) 0 else 0

end Sys2Proof.Machine
end

