-- ==== Sys2Proof/Machine/State.lean ====
section
/-! DEFINITION. The block's complete state vector (10_state.md R33) as plain data, the host's state with the free-draw
count beside it, and the reset state (70_reset_and_hazards.md R250). -/

namespace Sys2Proof.Machine

/-- Why the machine would stop without a next state: no constructor. Every condition the spec calls a fault is STATE here,
the fault latch of 60_exceptions.md R221, and raising it is a next state (R222); every word has an effect
(30_encoding.md R80) and every step ends (40_cycle_dispatch.md R100). Nobody raises it, so it is safe (log 1). -/
inductive Fault where
  deriving DecidableEq, Repr

/-- Why the model gives no next state. -/
inductive Refusal where
  /-- An instruction that has no meaning yet, raised by its arm of `exec`. Safe: nothing is claimed of it. No arm raises it. -/
  | notModelled (mnemonic : String)
  /-- A host LOAD that is not the one LOAD after RESET and before the first STEP, raised by `transact` only, never by
  `step` or `exec`. Safe: the spec puts such a run outside the model (70_reset_and_hazards.md R254, 93 U13). -/
  | loadOutOfOrder
  deriving DecidableEq, Repr

/-- The cause of a fault (60_exceptions.md R223). Codes 5 to 7 are reserved and never raised, so they have no name here
(93 U9; log 7). -/
inductive FaultCause where
  /-- 0: no fault. -/
  | none
  /-- 1: CALL with SP = 16. -/
  | stackOverflow
  /-- 2: RET with SP = 0. -/
  | stackUnderflow
  /-- 3: an address at or above `MEM_SIZE` under `OOB_POLICY = fault`. -/
  | addrRange
  /-- 4: a key number at or above 16 under `OOB_POLICY = fault`. -/
  | keyRange
  deriving DecidableEq, Repr

/-- What `raise Fault(cause, info)` carries (00_scope.md R11, 60_exceptions.md R222). -/
structure Trap where
  cause : FaultCause
  info : Word
  deriving DecidableEq, Repr

/-- Memory `M`: the addresses whose byte differs from the reset contents, rising, each with its byte
(20_memory.md R50; log 9). -/
abbrev Memory := List Host.Cell

/-- A pixel's position (X, Y): X grows to the right, Y downward (45_display.md, preamble). -/
abbrev Pixel := Nat × Nat

/-- Framebuffer `FB`: the set pixels, row by row from the top, left to right in a row (10_state.md R30; log 5). -/
abbrev Framebuffer := List Pixel

/-- The complete state vector of the block: exactly the elements of 10_state.md R33, and nothing else. -/
structure Block where
  /-- `M`, 4096 bytes (20_memory.md R50). -/
  mem : Memory
  /-- `V[0..15]` (10_state.md R20). -/
  v : Vector Byte 16
  /-- `I` (R24). -/
  i : Word
  /-- `PC` (R23). -/
  pc : Word
  /-- `SP`, 0 to 16 (R25; log 6). -/
  sp : Fin 17
  /-- `S[0..15]` (R26). -/
  stack : Vector Word 16
  /-- `DT` (R27). -/
  dt : Byte
  /-- `ST` (R28). -/
  st : Byte
  /-- `K[0..15]`, true when pressed (R29). -/
  keys : Vector Bool 16
  /-- `FB` (R30). -/
  fb : Framebuffer
  /-- `FAULT` (60_exceptions.md R221). -/
  fault : Bool
  /-- `FCAUSE`. -/
  fcause : FaultCause
  /-- `FPC`. -/
  fpc : Word
  /-- `FWORD`. -/
  fword : Word
  /-- `FINFO`. -/
  finfo : Word
  deriving DecidableEq, Repr

/-- What the host's `step`, which has no input, runs on: the block, and beside it the place reached in the sequence of RND
inputs. `RND` is an input and not state (10_state.md R33), so nothing of the block depends on `draws` but through the byte
drawn; `Block.step` is the step on R33's elements alone (log 3). -/
structure State extends Block where
  /-- The model's own: how many RND bytes have been drawn, the argument of the free value `Config.randomByte`. -/
  draws : Nat
  deriving DecidableEq, Repr

/-- The block `RESET` gives for parameters c (70_reset_and_hazards.md R250): PC at `LOAD_BASE`, memory at its reset
contents, everything else 0. -/
def Block.resetWith (c : Config) : Block :=
  { mem := []
    v := Vector.replicate 16 0
    i := 0
    pc := BitVec.ofNat 16 c.loadBase
    sp := 0
    stack := Vector.replicate 16 0
    dt := 0
    st := 0
    keys := Vector.replicate 16 false
    fb := []
    fault := false
    fcause := .none
    fpc := 0
    fword := 0
    finfo := 0 }

/-- The block after `RESET` with no RND byte drawn yet (log 3). -/
def State.resetWith (c : Config) : State := { toBlock := Block.resetWith c, draws := 0 }

/-- The machine right after reset (70_reset_and_hazards.md R250), at the default parameters. -/
def State.reset : State := State.resetWith defaults

end Sys2Proof.Machine
end

