-- ==== Sys2Proof/Machine/Ops.lean ====
section
/-! DEFINITION. The named operations over the state: memory through `Addr`, the call stack, the framebuffer, one update
per state element, and raising a fault. -/

namespace Sys2Proof.Machine

/-! ## One update per state element -/

/-- Replace the memory. -/
def State.setMem (s : State) (m : Memory) : State := { s with mem := m }
/-- Replace the register file. -/
def State.setRegs (s : State) (v : Vector Byte 16) : State := { s with v := v }
/-- `I <- w`. -/
def State.setI (s : State) (w : Word) : State := { s with i := w }
/-- `PC <- w`. -/
def State.setPc (s : State) (w : Word) : State := { s with pc := w }
/-- Replace the call stack and its pointer. -/
def State.setStack (s : State) (st : Vector Word 16) (sp : Fin 17) : State := { s with stack := st, sp := sp }
/-- `DT <- b`. -/
def State.setDt (s : State) (b : Byte) : State := { s with dt := b }
/-- `ST <- b`. -/
def State.setSt (s : State) (b : Byte) : State := { s with st := b }
/-- `K[k] <- b`: the host's KEY_SET only, on the block itself (10_state.md R29). -/
def Block.setKey (s : Block) (k : Fin 16) (b : Bool) : Block := { s with keys := s.keys.set k.val b k.isLt }
/-- Replace the framebuffer. -/
def State.setFb (s : State) (fb : Framebuffer) : State := { s with fb := fb }
/-- One RND byte has been drawn (log 3). -/
def State.nextDraw (s : State) : State := { s with draws := s.draws + 1 }

/-! ## Memory as data (20_memory.md R50, R57; log 9) -/

/-- The byte listed for an address, if one is. -/
def Memory.listed : Memory → Nat → Option Byte
  | [], _ => none
  | (k, b) :: m, a => if k = a then some b else Memory.listed m a

/-- `M[a]`: the listed byte, else the reset contents. -/
def Memory.read (c : Config) (m : Memory) (a : Nat) : Byte := (Memory.listed m a).getD (resetByte c a)

/-- List a byte for an address, in its place. -/
def Memory.put : Memory → Nat → Byte → Memory
  | [], a, b => [(a, b)]
  | (k, v) :: m, a, b =>
    if a < k then (a, b) :: (k, v) :: m
    else if a = k then (a, b) :: m
    else (k, v) :: Memory.put m a b

/-- List nothing for an address. -/
def Memory.drop (m : Memory) (a : Nat) : Memory := m.filter (fun e => e.1 ≠ a)

/-- `M[a] <- b`, keeping the canonical form. -/
def Memory.write (c : Config) (m : Memory) (a : Nat) (b : Byte) : Memory :=
  if b = resetByte c a then Memory.drop m a else Memory.put m a b

/-- Write the bytes at a, a + 1, and so on: the bytes of a host LOAD (70_reset_and_hazards.md R254). -/
def Memory.writeBytes (c : Config) : Memory → Nat → List Byte → Memory
  | m, _, [] => m
  | m, a, b :: bs => Memory.writeBytes c (Memory.write c m a b) (a + 1) bs

/-- The canonical form: addresses strictly rising and inside the 4096 bytes, no entry equal to the reset contents. -/
abbrev Memory.Wf (c : Config) (m : Memory) : Prop :=
  m.Pairwise (fun e f => e.1 < f.1) ∧ ∀ e ∈ m, e.1 < memSize ∧ e.2 ≠ resetByte c e.1

/-- `M[a]` of a state. -/
def Block.byteAt (c : Config) (s : Block) (a : Nat) : Byte := Memory.read c s.mem a

/-! ## Memory accesses (00_scope.md R11) -/

/-- `Addr(a)`: the memory address for an exact integer a, or ADDR_RANGE with `a mod 65536` (00_scope.md R11,
20_memory.md R55, 60_exceptions.md R226). -/
def addr (c : Config) (a : Nat) : Except Trap Nat :=
  match c.oob with
  | .wrap => .ok (a % memSize)
  | .fault => if a < memSize then .ok a else .error { cause := .addrRange, info := BitVec.ofNat 16 a }

/-- `MemRead(a, 1)`. -/
def memRead (c : Config) (m : Memory) (a : Nat) : Except Trap Byte :=
  match addr c a with
  | .ok p => .ok (Memory.read c m p)
  | .error e => .error e

/-- `MemWrite(a, 1, b)`. -/
def memWrite (c : Config) (m : Memory) (a : Nat) (b : Byte) : Except Trap Memory :=
  match addr c a with
  | .ok p => .ok (Memory.write c m p b)
  | .error e => .error e

/-- Read `len` bytes at a, a + 1, ... in ascending order; the first address out of range is the one reported
(60_exceptions.md R228). -/
def memReadRun (c : Config) (m : Memory) : Nat → Nat → Except Trap (List Byte)
  | _, 0 => .ok []
  | a, len + 1 =>
    match memRead c m a with
    | .error e => .error e
    | .ok b =>
      match memReadRun c m (a + 1) len with
      | .error e => .error e
      | .ok bs => .ok (b :: bs)

/-- Write bytes at a, a + 1, ... in ascending order. -/
def memWriteRun (c : Config) : Memory → Nat → List Byte → Except Trap Memory
  | m, _, [] => .ok m
  | m, a, b :: bs =>
    match memWrite c m a b with
    | .error e => .error e
    | .ok m' => memWriteRun c m' (a + 1) bs

/-! ## Call stack (10_state.md R25, R26) -/

/-- `S[SP] <- w; SP <- SP + 1`, or STACK_OVERFLOW when 16 entries are held (41_control_flow.md R113,
60_exceptions.md R224). -/
def State.push (s : State) (w : Word) : Except Trap State :=
  if h : s.sp.val < 16 then
    .ok (s.setStack (s.stack.set s.sp.val w h) ⟨s.sp.val + 1, Nat.succ_lt_succ h⟩)
  else .error { cause := .stackOverflow, info := 16 }

/-- `S[SP - 1]` and the state with `SP <- SP - 1`, or STACK_UNDERFLOW when the stack is empty (41_control_flow.md R111,
60_exceptions.md R225). The popped entry keeps its value. -/
def State.pop (s : State) : Except Trap (Word × State) :=
  if h : s.sp.val = 0 then .error { cause := .stackUnderflow, info := 0 }
  else
    .ok (s.stack[s.sp.val - 1]'(by have := s.sp.isLt; omega),
      s.setStack s.stack ⟨s.sp.val - 1, by have := s.sp.isLt; omega⟩)

/-! ## Framebuffer as data (10_state.md R30; log 5) -/

/-- Row-major order of pixels: the upper row first, then the column. -/
def pixelLt (p q : Pixel) : Bool := p.2 < q.2 || (p.2 == q.2 && p.1 < q.1)

/-- `FB[X][Y] = 1`. -/
def Framebuffer.lit (fb : Framebuffer) (p : Pixel) : Bool := decide (p ∈ fb)

/-- Set a pixel that is clear, in its place. -/
def Framebuffer.light : Framebuffer → Pixel → Framebuffer
  | [], p => [p]
  | q :: fb, p => if pixelLt p q then p :: q :: fb else q :: Framebuffer.light fb p

/-- `FB[X][Y] <- FB[X][Y] XOR 1`. -/
def Framebuffer.toggle (fb : Framebuffer) (p : Pixel) : Framebuffer :=
  if Framebuffer.lit fb p then fb.filter (fun q => q ≠ p) else Framebuffer.light fb p

/-- The canonical form: set pixels in row-major order without repeats, all inside the framebuffer. -/
abbrev Framebuffer.Wf (c : Config) (fb : Framebuffer) : Prop :=
  fb.Pairwise (fun p q => pixelLt p q = true) ∧ ∀ p ∈ fb, p.1 < c.fbW ∧ p.2 < c.fbH

/-- The columns 0 to 7 of a sprite row. -/
def spriteCols : List Nat := [0, 1, 2, 3, 4, 5, 6, 7]

/-- The visible set bits of one sprite row byte b at (px + col, Y), left to right: bit 7 - col is column col
(45_display.md R200). -/
def rowPixels (c : Config) (px Y : Nat) (b : Byte) : List Pixel :=
  (spriteCols.filter (fun col => b.getLsbD (7 - col) && px + col < c.fbW && Y < c.fbH)).map (fun col => (px + col, Y))

/-- The visible set bits of a sprite whose first row is at (px, Y), row by row (45_display.md R200). -/
def spritePixels (c : Config) (px : Nat) : Nat → List Byte → List Pixel
  | _, [] => []
  | Y, b :: bs => rowPixels c px Y b ++ spritePixels c px (Y + 1) bs

/-- The drawing loop of 45_display.md R200 over the visible set bits: toggle each pixel and note whether it was set. -/
def drawPixels : Framebuffer → Bool → List Pixel → Framebuffer × Bool
  | fb, col, [] => (fb, col)
  | fb, col, p :: ps => drawPixels (Framebuffer.toggle fb p) (col || Framebuffer.lit fb p) ps

/-! ## Raising a fault (60_exceptions.md R221, R222) -/

/-- `raise Fault(cause, info)`: the latch records the fault, PC is the step's start p0 again, and every other element is
as it was (60_exceptions.md R222). `w` is the fetched word, 0 if the fetch did not complete. -/
def State.takeFault (s : State) (p0 w : Word) (e : Trap) : State :=
  { s with pc := p0, fault := true, fcause := e.cause, fpc := p0, fword := w, finfo := e.info }

/-- The cause's 3-bit code, what `FCAUSE` reads as (60_exceptions.md R223). -/
def FaultCause.code : FaultCause → BitVec 3
  | .none => 0
  | .stackOverflow => 1
  | .stackUnderflow => 2
  | .addrRange => 3
  | .keyRange => 4

/-- End the execute phase of instruction i, entered in state s (PC already advanced, 40_cycle_dispatch.md R92): commit the
new state, or commit nothing and raise the fault (60_exceptions.md R222). PC at the step's start is `wrap16(PC - 2)`
(log 1). -/
def commit (i : Instr) (s : State) : Except Trap State → Host.Outcome State Fault Refusal
  | .ok t => .next t
  | .error e => .next (s.takeFault (s.pc - 2) (encode i) e)

end Sys2Proof.Machine
end

