-- ==== Sys2Proof/Machine/Operands.lean ====
section
/-! DEFINITION. The operand forms: a register, the register run V0..Vx, a 12-bit address, a key number, a glyph address,
the skip (30_encoding.md R73; 41_control_flow.md R110; 43_memory_transfer.md R162, R163, R165; 44_timers_input.md). -/

namespace Sys2Proof.Machine

/-- `V[x]` (10_state.md R20). -/
def Block.readV (s : Block) (x : Nibble) : Byte := s.v[x.toNat]'x.isLt

/-- `V[x] <- b`. -/
def State.writeV (s : State) (x : Nibble) (b : Byte) : State := s.setRegs (s.v.set x.toNat b x.isLt)

/-- VF, the flag register's number (00_scope.md R6 `FLAG_REG`; 10_state.md R21). -/
def flagReg : Nibble := 0xF#4

/-- `zext_16(nnn)` (30_encoding.md R73). -/
def zext16 (nnn : Addr12) : Word := nnn.setWidth 16

/-- `zext_16` of a byte. -/
def zextByte (b : Byte) : Word := b.setWidth 16

/-- `PC <- wrap16(PC + 2)`, the skip (41_control_flow.md R110) and the fetch advance (40_cycle_dispatch.md R92). -/
def State.skip (s : State) : State := s.setPc (s.pc + 2)

/-- `PC <- wrap16(PC - 2)`, the rewind of LD Vx, K (44_timers_input.md R185). -/
def State.rewind (s : State) : State := s.setPc (s.pc - 2)

/-- Skip when the condition holds. -/
def State.skipIf (s : State) (b : Bool) : State := if b then s.skip else s

/-- The bytes V[0], ..., V[x] (43_memory_transfer.md R162). -/
def State.regRun (s : State) (x : Nibble) : List Byte := s.v.toList.take (x.toNat + 1)

/-- `V[k] <- byte` for the bytes in order, from V[k] on (43_memory_transfer.md R163). -/
def State.writeRun : State → Nat → List Byte → State
  | s, _, [] => s
  | s, k, b :: bs => State.writeRun (s.writeV (BitVec.ofNat 4 k) b) (k + 1) bs

/-- `KeyIdx(v)`: the key slot a byte names, or KEY_RANGE (00_scope.md R11, 60_exceptions.md R227). -/
def keyIdx (c : Config) (b : Byte) : Except Trap (Fin 16) :=
  match c.oob with
  | .wrap => .ok ⟨b.toNat % 16, Nat.mod_lt _ (by decide)⟩
  | .fault => if h : b.toNat < 16 then .ok ⟨b.toNat, h⟩ else .error { cause := .keyRange, info := zextByte b }

/-- `K[k] = 1` (10_state.md R29). -/
def Block.keyDown (s : Block) (k : Fin 16) : Bool := s.keys[k.val]

/-- The first pressed slot in ascending order, if any is pressed (44_timers_input.md R185). -/
def State.firstKey (s : State) : Option (Fin 16) := (List.finRange 16).find? s.keyDown

/-- `wrap16(FONT_BASE + GLYPH_ROWS * v)`, no mask on v (43_memory_transfer.md R165). -/
def glyphAddr (c : Config) (b : Byte) : Word := BitVec.ofNat 16 (c.fontBase + glyphRows * b.toNat)

/-- The three decimal digits of a byte, hundreds first (43_memory_transfer.md R164). -/
def decimalDigits (b : Byte) : List Byte :=
  [BitVec.ofNat 8 (b.toNat / 100), BitVec.ofNat 8 (b.toNat / 10 % 10), BitVec.ofNat 8 (b.toNat % 10)]

end Sys2Proof.Machine
end

