-- ==== Sys2Proof/Machine/Flags.lean ====
section
/-! DEFINITION. The flag computations: VF is the machine's only flag (10_state.md R21, R22; 42_alu.md R130, R131). -/

namespace Sys2Proof.Machine

/-- A flag value as VF holds it: 1 or 0. -/
def flagByte (b : Bool) : Byte := if b then 1 else 0

/-- Carry of an addition: the exact sum exceeds 255 (42_alu.md R130, R138). -/
def carryOut (a b : Byte) : Bool := 255 < a.toNat + b.toNat

/-- No borrow of `a - b`: a >= b (42_alu.md R130, R139, R140). -/
def noBorrow (a b : Byte) : Bool := b.toNat ≤ a.toNat

/-- The bit a right shift moves out: bit 0 before the shift (42_alu.md R141). -/
def shrOut (a : Byte) : Bool := a.getLsbD 0

/-- The bit a left shift moves out: bit 7 before the shift (42_alu.md R142). -/
def shlOut (a : Byte) : Bool := a.getLsbD 7

/-- `V[x] <- r; V[F] <- flag`, in this order, so that the flag wins when x = F (42_alu.md R131). The caller has read every
operand before. -/
def State.writeFlagged (s : State) (x : Nibble) (r : Byte) (flag : Bool) : State :=
  (s.writeV x r).writeV flagReg (flagByte flag)

end Sys2Proof.Machine
end

