-- ==== Sys2Proof/Machine/Alu.lean ====
section
/-! DEFINITION. The ALU family: register moves, logic, add and subtract with flag, shifts, random (42_alu.md R130 to
R143). Operands are read before any result is written; the flag wins over the result when x = F (R131). -/

namespace Sys2Proof.Machine

/-- LD Vx, byte (42_alu.md R132). -/
def execLdImm (x : Nibble) (kk : Byte) (s : State) : Host.Outcome State Fault Refusal := .next (s.writeV x kk)

/-- ADD Vx, byte: no flag (42_alu.md R133). -/
def execAddImm (x : Nibble) (kk : Byte) (s : State) : Host.Outcome State Fault Refusal :=
  .next (s.writeV x (s.readV x + kk))

/-- LD Vx, Vy (42_alu.md R134). -/
def execLdReg (x y : Nibble) (s : State) : Host.Outcome State Fault Refusal := .next (s.writeV x (s.readV y))

/-- OR Vx, Vy: no flag (42_alu.md R135). -/
def execOr (x y : Nibble) (s : State) : Host.Outcome State Fault Refusal := .next (s.writeV x (s.readV x ||| s.readV y))

/-- AND Vx, Vy: no flag (42_alu.md R136). -/
def execAnd (x y : Nibble) (s : State) : Host.Outcome State Fault Refusal := .next (s.writeV x (s.readV x &&& s.readV y))

/-- XOR Vx, Vy: no flag (42_alu.md R137). -/
def execXor (x y : Nibble) (s : State) : Host.Outcome State Fault Refusal := .next (s.writeV x (s.readV x ^^^ s.readV y))

/-- ADD Vx, Vy (42_alu.md R138). -/
def execAddReg (x y : Nibble) (s : State) : Host.Outcome State Fault Refusal :=
  .next (s.writeFlagged x (s.readV x + s.readV y) (carryOut (s.readV x) (s.readV y)))

/-- SUB Vx, Vy: Vx - Vy (42_alu.md R139). -/
def execSub (x y : Nibble) (s : State) : Host.Outcome State Fault Refusal :=
  .next (s.writeFlagged x (s.readV x - s.readV y) (noBorrow (s.readV x) (s.readV y)))

/-- SUBN Vx, Vy: Vy - Vx (42_alu.md R140). -/
def execSubn (x y : Nibble) (s : State) : Host.Outcome State Fault Refusal :=
  .next (s.writeFlagged x (s.readV y - s.readV x) (noBorrow (s.readV y) (s.readV x)))

/-- SHR Vx; the y field is neither read nor written (42_alu.md R141). -/
def execShr (x _ign : Nibble) (s : State) : Host.Outcome State Fault Refusal :=
  .next (s.writeFlagged x (s.readV x >>> 1) (shrOut (s.readV x)))

/-- SHL Vx; the y field is neither read nor written (42_alu.md R142). -/
def execShl (x _ign : Nibble) (s : State) : Host.Outcome State Fault Refusal :=
  .next (s.writeFlagged x (s.readV x <<< 1) (shlOut (s.readV x)))

/-- RND Vx, byte when the step's RND input is r: `V[x] <- r AND kk` (42_alu.md R143, 60_exceptions.md R236). -/
def rndWith (r : Byte) (x : Nibble) (kk : Byte) (s : State) : Host.Outcome State Fault Refusal :=
  .next ((s.writeV x (r &&& kk)).nextDraw)

/-- RND Vx, byte: the RND input is the next free draw (log 2). -/
def execRnd (x : Nibble) (kk : Byte) (s : State) : Host.Outcome State Fault Refusal :=
  rndWith (Config.randomByte s.draws) x kk s

end Sys2Proof.Machine
end

