-- ==== Sys2Proof/Machine/ControlFlow.lean ====
section
/-! DEFINITION. The no-op, and the control-flow family: RET, JP, CALL, JP V0 and the four skips (40_cycle_dispatch.md R98;
41_control_flow.md R110 to R118). Every meaning runs in the execute phase: PC is already advanced past the instruction
(40_cycle_dispatch.md R92). -/

namespace Sys2Proof.Machine

/-- The no-op handler changes no state (40_cycle_dispatch.md R98). -/
def execNop (_w : Word) (s : State) : Host.Outcome State Fault Refusal := .next s

/-- RET (41_control_flow.md R111). -/
def execRet (ign : Byte) (s : State) : Host.Outcome State Fault Refusal :=
  commit (.ret ign) s (s.pop.map (fun r => r.2.setPc r.1))

/-- JP addr (41_control_flow.md R112). -/
def execJp (nnn : Addr12) (s : State) : Host.Outcome State Fault Refusal := .next (s.setPc (zext16 nnn))

/-- CALL addr (41_control_flow.md R113). -/
def execCall (nnn : Addr12) (s : State) : Host.Outcome State Fault Refusal :=
  commit (.call nnn) s ((s.push s.pc).map (fun t => t.setPc (zext16 nnn)))

/-- JP V0, addr (41_control_flow.md R114). -/
def execJpV0 (nnn : Addr12) (s : State) : Host.Outcome State Fault Refusal :=
  .next (s.setPc (zext16 nnn + zextByte (s.readV 0)))

/-- SE Vx, byte (41_control_flow.md R115). -/
def execSeImm (x : Nibble) (kk : Byte) (s : State) : Host.Outcome State Fault Refusal :=
  .next (s.skipIf (s.readV x == kk))

/-- SNE Vx, byte (41_control_flow.md R116). -/
def execSneImm (x : Nibble) (kk : Byte) (s : State) : Host.Outcome State Fault Refusal :=
  .next (s.skipIf (s.readV x != kk))

/-- SE Vx, Vy; the low nibble is ignored (41_control_flow.md R117). -/
def execSeReg (x y _ign : Nibble) (s : State) : Host.Outcome State Fault Refusal :=
  .next (s.skipIf (s.readV x == s.readV y))

/-- SNE Vx, Vy; the low nibble is ignored (41_control_flow.md R118). -/
def execSneReg (x y _ign : Nibble) (s : State) : Host.Outcome State Fault Refusal :=
  .next (s.skipIf (s.readV x != s.readV y))

end Sys2Proof.Machine
end

