-- ==== Sys2Proof/Machine/Display.lean ====
section
/-! DEFINITION. The display family: DRW and CLS (45_display.md R200, R202). -/

namespace Sys2Proof.Machine

/-- CLS: every pixel clear; VF unchanged (45_display.md R202). -/
def execCls (_ign : Byte) (s : State) : Host.Outcome State Fault Refusal := .next (s.setFb [])

/-- The effect of DRW once its row bytes are read: the start position is wrapped once, each visible set bit toggles its
pixel, VF is the collision (45_display.md R200). Both coordinates are read before VF is written. -/
def State.drawSprite (c : Config) (s : State) (x y : Nibble) (rows : List Byte) : State :=
  let px := (s.readV x).toNat % c.fbW
  let py := (s.readV y).toNat % c.fbH
  let r := drawPixels s.fb false (spritePixels c px py rows)
  (s.setFb r.1).writeV flagReg (flagByte r.2)

/-- DRW Vx, Vy, nibble for any parameters: all n row bytes are read, visible or not (45_display.md R200). -/
def drwWith (c : Config) (x y n : Nibble) (s : State) : Host.Outcome State Fault Refusal :=
  commit (.drw x y n) s ((memReadRun c s.mem s.i.toNat n.toNat).map (s.drawSprite c x y))

/-- DRW Vx, Vy, nibble (45_display.md R200). -/
def execDrw (x y n : Nibble) (s : State) : Host.Outcome State Fault Refusal := drwWith defaults x y n s

end Sys2Proof.Machine
end

