-- ==== Sys2Proof/Machine/MemTransfer.lean ====
section
/-! DEFINITION. The memory-transfer and index-register family (43_memory_transfer.md R160 to R165). A form whose meaning
depends on a parameter is written once for any parameters (…With) and used at the defaults. `I + k` is an exact integer
before `Addr` (00_scope.md R11). -/

namespace Sys2Proof.Machine

/-- LD I, addr (43_memory_transfer.md R160). -/
def execLdI (nnn : Addr12) (s : State) : Host.Outcome State Fault Refusal := .next (s.setI (zext16 nnn))

/-- ADD I, Vx: no flag (43_memory_transfer.md R161). -/
def execAddI (x : Nibble) (s : State) : Host.Outcome State Fault Refusal := .next (s.setI (s.i + zextByte (s.readV x)))

/-- LD F, Vx for any parameters (43_memory_transfer.md R165). -/
def ldFWith (c : Config) (x : Nibble) (s : State) : Host.Outcome State Fault Refusal :=
  .next (s.setI (glyphAddr c (s.readV x)))

/-- LD F, Vx (43_memory_transfer.md R165). -/
def execLdF (x : Nibble) (s : State) : Host.Outcome State Fault Refusal := ldFWith defaults x s

/-- LD B, Vx for any parameters (43_memory_transfer.md R164). -/
def ldBWith (c : Config) (x : Nibble) (s : State) : Host.Outcome State Fault Refusal :=
  commit (.ldB x) s ((memWriteRun c s.mem s.i.toNat (decimalDigits (s.readV x))).map s.setMem)

/-- LD B, Vx (43_memory_transfer.md R164). -/
def execLdB (x : Nibble) (s : State) : Host.Outcome State Fault Refusal := ldBWith defaults x s

/-- LD [I], Vx for any parameters: V0..Vx to memory, I unchanged (43_memory_transfer.md R162). -/
def ldMemVxWith (c : Config) (x : Nibble) (s : State) : Host.Outcome State Fault Refusal :=
  commit (.ldMemVx x) s ((memWriteRun c s.mem s.i.toNat (s.regRun x)).map s.setMem)

/-- LD [I], Vx (43_memory_transfer.md R162). -/
def execLdMemVx (x : Nibble) (s : State) : Host.Outcome State Fault Refusal := ldMemVxWith defaults x s

/-- LD Vx, [I] for any parameters: V0..Vx from memory, I unchanged (43_memory_transfer.md R163). -/
def ldVxMemWith (c : Config) (x : Nibble) (s : State) : Host.Outcome State Fault Refusal :=
  commit (.ldVxMem x) s ((memReadRun c s.mem s.i.toNat (x.toNat + 1)).map (s.writeRun 0))

/-- LD Vx, [I] (43_memory_transfer.md R163). -/
def execLdVxMem (x : Nibble) (s : State) : Host.Outcome State Fault Refusal := ldVxMemWith defaults x s

end Sys2Proof.Machine
end

