-- ==== Sys2Proof/Machine/TimersInput.lean ====
section
/-! DEFINITION. The timer-access and input family (44_timers_input.md R180 to R185). The step's timer phase runs after
these meanings (40_cycle_dispatch.md R96), in Machine/Sequencer.lean. -/

namespace Sys2Proof.Machine

/-- LD Vx, DT: DT as it is before this step's timer phase (44_timers_input.md R180). -/
def execLdVxDt (x : Nibble) (s : State) : Host.Outcome State Fault Refusal := .next (s.writeV x s.dt)

/-- LD DT, Vx (44_timers_input.md R181). -/
def execLdDtVx (x : Nibble) (s : State) : Host.Outcome State Fault Refusal := .next (s.setDt (s.readV x))

/-- LD ST, Vx (44_timers_input.md R182). -/
def execLdStVx (x : Nibble) (s : State) : Host.Outcome State Fault Refusal := .next (s.setSt (s.readV x))

/-- SKP Vx for any parameters (44_timers_input.md R183). -/
def skpWith (c : Config) (x ign : Nibble) (s : State) : Host.Outcome State Fault Refusal :=
  commit (.skp x ign) s ((keyIdx c (s.readV x)).map (fun k => s.skipIf (s.keyDown k)))

/-- SKP Vx (44_timers_input.md R183). -/
def execSkp (x ign : Nibble) (s : State) : Host.Outcome State Fault Refusal := skpWith defaults x ign s

/-- SKNP Vx for any parameters (44_timers_input.md R184). -/
def sknpWith (c : Config) (x ign : Nibble) (s : State) : Host.Outcome State Fault Refusal :=
  commit (.sknp x ign) s ((keyIdx c (s.readV x)).map (fun k => s.skipIf (!s.keyDown k)))

/-- SKNP Vx (44_timers_input.md R184). -/
def execSknp (x ign : Nibble) (s : State) : Host.Outcome State Fault Refusal := sknpWith defaults x ign s

/-- LD Vx, K: the lowest pressed key, or back to this instruction's own address (44_timers_input.md R185). -/
def execLdVxK (x : Nibble) (s : State) : Host.Outcome State Fault Refusal :=
  match s.firstKey with
  | some k => .next (s.writeV x (BitVec.ofNat 8 k.val))
  | none => .next s.rewind

end Sys2Proof.Machine
end

