-- ==== Sys2Proof/Machine/Sequencer.lean ====
section
/-! DEFINITION. The cycle sequencer: fetch, advance, timers, and one Cycle over any execute phase (40_cycle_dispatch.md R90
to R100). -/

namespace Sys2Proof.Machine

/-- Fetch phase: the byte at PC is the high byte, the byte at PC + 1 the low byte, both through `Addr`
(40_cycle_dispatch.md R91, 20_memory.md R53, R54). -/
def fetch (c : Config) (s : State) : Except Trap Word :=
  match memRead c s.mem s.pc.toNat with
  | .error e => .error e
  | .ok hi =>
    match memRead c s.mem (s.pc.toNat + 1) with
    | .error e => .error e
    | .ok lo => .ok (wordOfBytes hi lo)

/-- Advance phase: `PC <- wrap16(PC + 2)` (40_cycle_dispatch.md R92). -/
def State.advance (s : State) : State := s.setPc (s.pc + 2)

/-- A timer's decrement, stopping at zero (40_cycle_dispatch.md R96). -/
def countDown (b : Byte) : Byte := if b = 0 then 0 else b - 1

/-- Timer phase: both timers, each on its value after the handler (40_cycle_dispatch.md R96). -/
def State.tick (s : State) : State := (s.setDt (countDown s.dt)).setSt (countDown s.st)

/-- The end of a step: the timer phase, unless the step raised a fault, which commits nothing but the latch
(40_cycle_dispatch.md R96, 60_exceptions.md R222). -/
def State.finish (s : State) : State := if s.fault then s else s.tick

/-- One Cycle with `run` as its execute phase (40_cycle_dispatch.md R90): stuck when faulted (60_exceptions.md R229); a
fetch fault records the word 0 (R221). -/
def cycle (c : Config) (run : Instr → State → Host.Outcome State Fault Refusal) (s : State) :
    Host.Outcome State Fault Refusal :=
  if s.fault then .next s
  else
    match fetch c s with
    | .error e => .next (s.takeFault s.pc 0 e)
    | .ok w =>
      match run (decodeWord w) s.advance with
      | .next t => .next t.finish
      | .fault r => .fault r
      | .refused r => .refused r

/-- Ready the state to fetch: a set fault latch is cleared to its reset value, since a faulted block fetches nothing
(60_exceptions.md R229). -/
def State.unlatch (s : State) : State :=
  if s.fault then { s with fault := false, fcause := .none, fpc := 0, fword := 0, finfo := 0 } else s

/-- The state with the word w where the next fetch reads it, at `Addr(PC)` and `Addr(PC + 1)`, big-endian, and ready to
fetch. It stands for the host's LOAD (log 10). -/
def State.placeWord (c : Config) (s : State) (w : Word) : State :=
  match memWriteRun c s.mem s.pc.toNat (bytesOfWord w) with
  | .ok m => s.unlatch.setMem m
  | .error _ => s

end Sys2Proof.Machine
end

