-- ==== Sys2Proof/Machine/Step.lean ====
section
/-! DEFINITION. The step: one STEP transaction at the default parameters (00_scope.md R8, 40_cycle_dispatch.md R90). -/

namespace Sys2Proof.Machine

/-- One Cycle (40_cycle_dispatch.md R90). -/
def step (s : State) : Host.Outcome State Fault Refusal := cycle defaults exec s

/-- The state with a table word stored where `step` fetches its next instruction. -/
def State.withFetchWord (s : State) (nbits w : Nat) : State := s.placeWord defaults (tableWord nbits w)

end Sys2Proof.Machine
end

