-- ==== Sys2Proof/Machine/Parametric.lean ====
section
/-! DEFINITION. The machine for any parameters and with the RND byte as an explicit input (00_scope.md R7;
40_cycle_dispatch.md R99: one function of the state before the step and the RND input). `exec` and `step` are its case at
the default parameters, with the free draw as the input. -/

namespace Sys2Proof.Machine

/-- The execute phase for parameters c and RND input r. -/
def execWith (c : Config) (r : Byte) (i : Instr) (s : State) : Host.Outcome State Fault Refusal :=
  match i with
  | .nop w => execNop w s
  | .cls ign => execCls ign s
  | .ret ign => execRet ign s
  | .jp nnn => execJp nnn s
  | .call nnn => execCall nnn s
  | .seImm x kk => execSeImm x kk s
  | .sneImm x kk => execSneImm x kk s
  | .seReg x y ign => execSeReg x y ign s
  | .ldImm x kk => execLdImm x kk s
  | .addImm x kk => execAddImm x kk s
  | .ldReg x y => execLdReg x y s
  | .orReg x y => execOr x y s
  | .andReg x y => execAnd x y s
  | .xorReg x y => execXor x y s
  | .addReg x y => execAddReg x y s
  | .sub x y => execSub x y s
  | .shr x ign => execShr x ign s
  | .subn x y => execSubn x y s
  | .shl x ign => execShl x ign s
  | .sneReg x y ign => execSneReg x y ign s
  | .ldI nnn => execLdI nnn s
  | .jpV0 nnn => execJpV0 nnn s
  | .rnd x kk => rndWith r x kk s
  | .drw x y n => drwWith c x y n s
  | .skp x ign => skpWith c x ign s
  | .sknp x ign => sknpWith c x ign s
  | .ldVxDt x => execLdVxDt x s
  | .ldVxK x => execLdVxK x s
  | .ldDtVx x => execLdDtVx x s
  | .ldStVx x => execLdStVx x s
  | .addI x => execAddI x s
  | .ldF x => ldFWith c x s
  | .ldB x => ldBWith c x s
  | .ldMemVx x => ldMemVxWith c x s
  | .ldVxMem x => ldVxMemWith c x s

/-- One Cycle for parameters c and RND input r (40_cycle_dispatch.md R90, R99). -/
def stepWith (c : Config) (r : Byte) (s : State) : Host.Outcome State Fault Refusal := cycle c (execWith c r) s

/-- One Cycle as a function of the state vector and the RND input alone (10_state.md R33, 40_cycle_dispatch.md R99): the
count beside the block is dropped, and what it is does not matter. -/
def Block.step (c : Config) (r : Byte) (b : Block) : Host.Outcome Block Fault Refusal :=
  match stepWith c r { toBlock := b, draws := 0 } with
  | .next t => .next t.toBlock
  | .fault f => .fault f
  | .refused f => .refused f

end Sys2Proof.Machine
end

