-- ==== Sys2Proof/Machine/Transactions.lean ====
section
/-! DEFINITION. The block's boundary: the transactions a host may issue between steps, and what it may observe
(00_scope.md R8; 60_exceptions.md R237 to R240; 70_reset_and_hazards.md R250, R254 to R256). -/

namespace Sys2Proof.Machine

/-- A transaction that changes the block (00_scope.md R8). -/
inductive Transaction where
  /-- `RESET`. -/
  | reset
  /-- `LOAD(bytes)`. -/
  | load (image : List Byte)
  /-- `STEP`, with the step's RND byte (60_exceptions.md R240). -/
  | step (rnd : Byte)
  /-- `KEY_SET(k, b)`. -/
  | keySet (k : Fin 16) (b : Bool)
  deriving DecidableEq, Repr

/-- The block as its host sees it: the state vector, and whether LOAD is still legal, that is, after RESET, before the first
STEP and before another LOAD (70_reset_and_hazards.md R254; log 10). -/
structure Session where
  core : Block
  loadable : Bool
  deriving DecidableEq, Repr

/-- What the host is told (60_exceptions.md R240: a LOAD is accepted or rejected). -/
inductive Report where
  | done
  | accepted
  | rejected
  deriving DecidableEq, Repr

/-- `RESET`: the construction again, whatever the state was (70_reset_and_hazards.md R250). -/
def hostReset (c : Config) (_s : Block) : Block := Block.resetWith c

/-- `LOAD(bytes)`: byte j at `LOAD_BASE + j`, or rejected with no byte written when the image is longer than
`MAX_IMAGE` (70_reset_and_hazards.md R254, R255). -/
def hostLoad (c : Config) (image : List Byte) (s : Block) : Block × Report :=
  if image.length ≤ c.maxImage then ({ s with mem := Memory.writeBytes c s.mem c.loadBase image }, .accepted)
  else (s, .rejected)

/-- `KEY_SET(k, b)` (10_state.md R29, 60_exceptions.md R238). -/
def hostKeySet (k : Fin 16) (b : Bool) (s : Block) : Block := s.setKey k b

/-- One transaction. A LOAD that is not the one between RESET and the first STEP is refused by name: such a run is outside
the model (70_reset_and_hazards.md R254, 93 U13). -/
def transact (c : Config) (t : Transaction) (σ : Session) : Host.Outcome (Session × Report) Fault Refusal :=
  match t with
  | .reset => .next ({ core := hostReset c σ.core, loadable := true }, .done)
  | .load image =>
    if σ.loadable then
      .next ({ core := (hostLoad c image σ.core).1, loadable := false }, (hostLoad c image σ.core).2)
    else .refused .loadOutOfOrder
  | .step r =>
    match σ.core.step c r with
    | .next s => .next ({ core := s, loadable := false }, .done)
    | .fault f => .fault f
    | .refused f => .refused f
  | .keySet k b => .next ({ core := hostKeySet k b σ.core, loadable := σ.loadable }, .done)

/-- `FB_READ(x, y)`: one pixel, for coordinates inside the framebuffer (60_exceptions.md R239, R240; log 11). -/
def fbRead (c : Config) (s : Block) (x y : Nat) : Option Bool :=
  if x < c.fbW ∧ y < c.fbH then some (Framebuffer.lit s.fb (x, y)) else none

/-- `ST_NZ` = (`ST != 0`), the only sound-related output (60_exceptions.md R237). -/
def stNz (s : Block) : Bool := s.st != 0

/-- The fault outputs `FAULT`, `FCAUSE`, `FPC`, `FWORD`, `FINFO` in their port widths (00_scope.md R8,
60_exceptions.md R221, R223). -/
def faultPorts (s : Block) : Bool × BitVec 3 × Word × Word × Word :=
  (s.fault, s.fcause.code, s.fpc, s.fword, s.finfo)

end Sys2Proof.Machine
end

