-- ==== Sys2Proof/Safety.lean ====
section
/-! DEFINITION. What a good state is, the two ends of a run (60_exceptions.md R242), and the effects and frames the
statements name. -/

namespace Sys2Proof.Machine

/-- The fault latch is consistent: without a fault every field has its reset value, with one the cause is named
(60_exceptions.md R221, R223). -/
abbrev Block.LatchWf (s : Block) : Prop :=
  (s.fault = false → s.fcause = .none ∧ s.fpc = 0 ∧ s.fword = 0 ∧ s.finfo = 0) ∧
  (s.fault = true → s.fcause ≠ .none)

/-- A well-formed block for parameters c: memory and framebuffer in canonical form and inside their sizes, the latch
consistent. -/
abbrev Block.Wf (c : Config) (s : Block) : Prop :=
  Memory.Wf c s.mem ∧ Framebuffer.Wf c s.fb ∧ s.LatchWf

/-- A well-formed state of the machine `step` runs. -/
abbrev State.Inv (s : State) : Prop := s.Wf defaults

/-- **faulted**: a fault is final and recorded (60_exceptions.md R242). -/
abbrev State.Faulted (s : State) : Prop := s.fault = true

/-- **idle**: no fault, and the word at PC is a JP to itself (60_exceptions.md R242). -/
abbrev State.Idle (c : Config) (s : State) : Prop :=
  s.fault = false ∧ ∃ nnn : Addr12, fetch c s = .ok (encode (.jp nnn)) ∧ zext16 nnn = s.pc

/-- t is s but for the register file. -/
abbrev State.SameButRegs (s t : State) : Prop := t = s.setRegs t.v

/-- t is s but for V[x]. -/
abbrev State.SameButV (s t : State) (x : Nibble) : Prop :=
  s.SameButRegs t ∧ ∀ z : Nibble, z ≠ x → t.readV z = s.readV z

/-- t is s but for V[x] and VF. -/
abbrev State.SameButVAndFlag (s t : State) (x : Nibble) : Prop :=
  s.SameButRegs t ∧ ∀ z : Nibble, z ≠ x → z ≠ flagReg → t.readV z = s.readV z

/-- t is s but for the memory, and there only at the addresses `Addr(I + k)`, k < len, that the form stores to. -/
abbrev State.SameButMemRun (c : Config) (s t : State) (len : Nat) : Prop :=
  t = s.setMem t.mem ∧
  ∀ a, (∀ k, k < len → addr c (s.i.toNat + k) ≠ .ok a) → t.byteAt c a = s.byteAt c a

/-- Every address `I + k`, k < len, is usable under the policy: any under wrap, those below 4096 under fault
(20_memory.md R55). -/
abbrev RunInRange (c : Config) (s : State) (len : Nat) : Prop := c.oob = .wrap ∨ s.i.toNat + len ≤ memSize

/-- What instruction i, entered in state s, answers when its first address out of range is a: the state before the step
with ADDR_RANGE latched (60_exceptions.md R222, R226). -/
abbrev addrRangeAt (s : State) (i : Instr) (a : Nat) : Host.Outcome State Fault Refusal :=
  .next { s with pc := s.pc - 2, fault := true, fcause := .addrRange, fpc := s.pc - 2, fword := encode i,
                 finfo := BitVec.ofNat 16 a }

/-- The effect of LD [I], Vx: V[k] at `Addr(I + k)` for k = 0..x, nothing else (43_memory_transfer.md R162). -/
abbrev StoresRegs (c : Config) (s t : State) (x : Nibble) : Prop :=
  (∀ k : Nibble, k.toNat ≤ x.toNat → ∀ a, addr c (s.i.toNat + k.toNat) = .ok a → t.byteAt c a = s.readV k) ∧
  s.SameButMemRun c t (x.toNat + 1)

/-- The effect of LD Vx, [I]: V[k] from `Addr(I + k)` for k = 0..x, nothing else (43_memory_transfer.md R163). -/
abbrev LoadsRegs (c : Config) (s t : State) (x : Nibble) : Prop :=
  (∀ k : Nibble, k.toNat ≤ x.toNat → ∀ a, addr c (s.i.toNat + k.toNat) = .ok a → t.readV k = s.byteAt c a) ∧
  (∀ k : Nibble, x.toNat < k.toNat → t.readV k = s.readV k) ∧
  s.SameButRegs t

/-- The effect of LD B, Vx: the hundreds, tens and units of V[x] at `Addr(I)`, `Addr(I + 1)`, `Addr(I + 2)`, nothing else
(43_memory_transfer.md R164). -/
abbrev StoresDigits (c : Config) (s t : State) (x : Nibble) : Prop :=
  (∀ a, addr c s.i.toNat = .ok a → (t.byteAt c a).toNat = (s.readV x).toNat / 100) ∧
  (∀ a, addr c (s.i.toNat + 1) = .ok a → (t.byteAt c a).toNat = (s.readV x).toNat / 10 % 10) ∧
  (∀ a, addr c (s.i.toNat + 2) = .ok a → (t.byteAt c a).toNat = (s.readV x).toNat % 10) ∧
  s.SameButMemRun c t 3

/-- Whether a sprite of n rows at `I`, its top-left pixel at (px, py), has a set bit at pixel (X, Y): row r = Y - py,
column X - px, bit 7 - column of the byte at `Addr(I + r)` (45_display.md R200). -/
def spriteBit (c : Config) (s : State) (px py n X Y : Nat) : Bool :=
  decide (py ≤ Y ∧ Y < py + n ∧ px ≤ X ∧ X < px + 8) &&
    (s.byteAt c ((s.i.toNat + (Y - py)) % memSize)).getLsbD (7 - (X - px))

/-- Whether DRW Vx, Vy, n in state s covers pixel (X, Y) with a set bit: the start position is wrapped once, at draw time
(45_display.md R200). -/
def drawsAt (c : Config) (s : State) (x y n : Nibble) (X Y : Nat) : Bool :=
  spriteBit c s ((s.readV x).toNat % c.fbW) ((s.readV y).toNat % c.fbH) n.toNat X Y

/-- The effect of DRW Vx, Vy, n: every visible pixel is XORed with the sprite, none is touched outside the framebuffer
(clip, never wrap), VF is the collision, nothing else changes (45_display.md R200). -/
abbrev DrawsSprite (c : Config) (s t : State) (x y n : Nibble) : Prop :=
  (∀ X Y, X < c.fbW → Y < c.fbH →
    Framebuffer.lit t.fb (X, Y) = (Framebuffer.lit s.fb (X, Y) ^^ drawsAt c s x y n X Y)) ∧
  (∀ X Y, ¬ (X < c.fbW ∧ Y < c.fbH) → Framebuffer.lit t.fb (X, Y) = Framebuffer.lit s.fb (X, Y)) ∧
  ((∃ X Y, X < c.fbW ∧ Y < c.fbH ∧ drawsAt c s x y n X Y = true ∧ Framebuffer.lit s.fb (X, Y) = true) →
    t.readV flagReg = 1) ∧
  ((∀ X Y, X < c.fbW → Y < c.fbH → drawsAt c s x y n X Y = true → Framebuffer.lit s.fb (X, Y) = false) →
    t.readV flagReg = 0) ∧
  (∀ z : Nibble, z ≠ flagReg → t.readV z = s.readV z) ∧
  t = { s with fb := t.fb, v := t.v }

end Sys2Proof.Machine
end

