-- ==== Sys2Proof/Certificates/Slice0/Obligations.lean ====
section
/-! DEFINITION. The statements for the provers. `exec` runs in the execute phase: PC in the state it is given is already
advanced past the instruction (40_cycle_dispatch.md R92). `stepWith c r` is the step for parameters c and RND input r;
`step` is its case at the default parameters (StepIsParametricStep). -/

open Sys2Proof Sys2Proof.Machine

/-! ## Encoding -/

/-- Every well-formed instruction, as it lies in memory, decodes to itself and to nothing more (30_encoding.md R70). -/
def Obligations.DecodeOfEncode : Prop :=
  ∀ (i : Instr) (rest : List Byte), i.wf = true → decode (encodeBytes i ++ rest) = .ok (i, rest)

/-- Every one of the 65536 words decodes to a well-formed instruction that encodes back to it: no bit is dropped and no word
is illegal (40_cycle_dispatch.md R95, 30_encoding.md R80). -/
def Obligations.EncodeOfDecode : Prop :=
  ∀ w : Word, (decodeWord w).wf = true ∧ encode (decodeWord w) = w

/-- The decoder's kind is that of the opcode table's row, and a word of no row is a no-op (30_encoding.md R74 to R81). -/
def Obligations.DecodeFollowsOpcodeTable : Prop :=
  ∀ w : Word,
    (∀ r ∈ opcodeRows, w &&& r.2.1 = r.1 → kindNumber (decodeWord w) = r.2.2) ∧
    ((∀ r ∈ opcodeRows, w &&& r.2.1 ≠ r.1) → decodeWord w = .nop w)

/-- No two instruction rows of the opcode table match the same word (30_encoding.md, preamble). -/
def Obligations.OpcodeRowsDisjoint : Prop :=
  opcodeRows.Pairwise (fun r q => ∀ w : Word, ¬ (w &&& r.2.1 = r.1 ∧ w &&& q.2.1 = q.1))

/-- Sample words, written out from the encodings of 30_encoding.md R74 to R79, one or more a family. -/
def Obligations.SampleWordsDecode : Prop :=
  decode [0x00, 0xE0] = .ok (.cls 0x0E, []) ∧ decode [0x0F, 0xFE] = .ok (.ret 0xFF, []) ∧
  decode [0x0F, 0xFF] = .ok (.nop 0x0FFF, []) ∧ decode [0x1A, 0xBC] = .ok (.jp 0xABC, []) ∧
  decode [0x51, 0x27] = .ok (.seReg 1 2 7, []) ∧ decode [0x8A, 0xB6] = .ok (.shr 0xA 0xB, []) ∧
  decode [0xC1, 0x0F] = .ok (.rnd 1 0x0F, []) ∧ decode [0xD1, 0x25] = .ok (.drw 1 2 5, []) ∧
  decode [0xE1, 0x9E] = .ok (.skp 1 9, []) ∧ decode [0xF0, 0x17] = .ok (.nop 0xF017, []) ∧
  decode [0xFF, 0x65] = .ok (.ldVxMem 0xF, []) ∧ decode [0x60] = .error .truncated

/-- The bits a handler does not read change nothing it does (30_encoding.md R75, R77, R79). -/
def Obligations.IgnoredBitsIgnored : Prop :=
  ∀ (x y a b : Nibble) (p q : Byte) (s : State),
    exec (.cls p) s = exec (.cls q) s ∧
    (s.sp ≠ 0 → exec (.ret p) s = exec (.ret q) s) ∧
    exec (.seReg x y a) s = exec (.seReg x y b) s ∧
    exec (.sneReg x y a) s = exec (.sneReg x y b) s ∧
    exec (.shr x a) s = exec (.shr x b) s ∧
    exec (.shl x a) s = exec (.shl x b) s ∧
    exec (.skp x a) s = exec (.skp x b) s ∧
    exec (.sknp x a) s = exec (.sknp x b) s

/-! ## The step -/

/-- When the two bytes at PC decode to i, the step is the execute phase of i in the state with PC advanced by 2, then the
timer phase unless the instruction raised a fault (40_cycle_dispatch.md R90, R91, R92, R96). -/
def Obligations.StepRunsDecoded : Prop :=
  ∀ (s : State) (i : Instr), s.fault = false →
    decode [s.byteAt defaults (s.pc.toNat % 4096), s.byteAt defaults ((s.pc.toNat + 1) % 4096)] = .ok (i, []) →
    step s = match exec i { s with pc := s.pc + 2 } with
      | .next t => .next (if t.fault then t else
          { t with dt := if t.dt = 0 then 0 else t.dt - 1, st := if t.st = 0 then 0 else t.st - 1 })
      | .fault r => .fault r
      | .refused r => .refused r

/-- `step` and `exec` are the parametric machine at the default parameters, with the next free draw as the RND input
(00_scope.md R7, 40_cycle_dispatch.md R99; log 2, log 4). -/
def Obligations.StepIsParametricStep : Prop :=
  (∀ s, step s = stepWith defaults (Config.randomByte s.draws) s) ∧
  (∀ i s, exec i s = execWith defaults (Config.randomByte s.draws) i s)

/-- The step on the elements of 10_state.md R33 is a function of these elements and the RND input alone: whatever count of
draws stands beside the block, `stepWith`, and `step` with the byte drawn, take the block where `Block.step` takes it (10_state.md R33,
40_cycle_dispatch.md R99, 60_exceptions.md R236; that `step` draws the byte and counts the draws is the model's, log 2 and log 3). -/
def Obligations.StateVectorComplete : Prop :=
  (∀ c r s, ∃ t, stepWith c r s = .next t ∧ Block.step c r s.toBlock = .next t.toBlock) ∧
  (∀ s, ∃ t, step s = .next t ∧ Block.step defaults (Config.randomByte s.draws) s.toBlock = .next t.toBlock)

/-- The fetch is big-endian from PC and PC + 1 through `Addr`; under the policy fault the first address out of range is
raised (40_cycle_dispatch.md R91). -/
def Obligations.FetchBigEndian : Prop :=
  (∀ c s, c.oob = .wrap →
    fetch c s = .ok (s.byteAt c (s.pc.toNat % 4096) ++ s.byteAt c ((s.pc.toNat + 1) % 4096))) ∧
  (∀ c s, c.oob = .fault → s.pc.toNat + 1 < 4096 →
    fetch c s = .ok (s.byteAt c s.pc.toNat ++ s.byteAt c (s.pc.toNat + 1))) ∧
  (∀ c r s, s.fault = false → c.oob = .fault → 4096 ≤ s.pc.toNat + 1 →
    stepWith c r s = .next { s with fault := true, fcause := .addrRange, fpc := s.pc, fword := 0,
                                    finfo := BitVec.ofNat 16 (max s.pc.toNat 4096) })

/-- Every step ends: no state and no word leaves the machine without a next state (40_cycle_dispatch.md R100,
30_encoding.md R80). -/
def Obligations.EveryStepEnds : Prop :=
  (∀ s, ∃ t, step s = .next t) ∧ (∀ c r s, ∃ t, stepWith c r s = .next t)

/-- Faults are precise: a step that raises one commits nothing but the latch, which records the cause, PC at the step's
start, the fetched word (0 if the fetch did not complete) and the information value (60_exceptions.md R222). -/
def Obligations.FaultsArePrecise : Prop :=
  ∀ c r s t, s.fault = false → stepWith c r s = .next t → t.fault = true →
    ∃ cause info, cause ≠ .none ∧
      t = { s with fault := true, fcause := cause, fpc := s.pc,
                   fword := (match fetch c s with | .ok w => w | .error _ => 0), finfo := info }

/-- What each cause means: codes 1 to 4 of 60_exceptions.md R223 and who raises them (R224 to R227). -/
def Obligations.FaultCausesComplete : Prop :=
  ∀ c r s t, s.fault = false → stepWith c r s = .next t → t.fault = true →
    (t.fcause.code = 1 ∧ t.finfo = 16 ∧ s.sp = 16 ∧ ∃ nnn, fetch c s = .ok (encode (.call nnn))) ∨
    (t.fcause.code = 2 ∧ t.finfo = 0 ∧ s.sp = 0 ∧ ∃ ign, fetch c s = .ok (encode (.ret ign))) ∨
    (t.fcause.code = 3 ∧ c.oob = .fault ∧ 4096 ≤ t.finfo.toNat ∧
      ((∃ e, fetch c s = .error e) ∨ ∃ w, fetch c s = .ok w ∧ kindNumber (decodeWord w) ∈ [23, 32, 33, 34])) ∨
    (t.fcause.code = 4 ∧ c.oob = .fault ∧ ∃ x ign,
      (fetch c s = .ok (encode (.skp x ign)) ∨ fetch c s = .ok (encode (.sknp x ign))) ∧
      16 ≤ (s.readV x).toNat ∧ t.finfo.toNat = (s.readV x).toNat)

/-- At the default parameters a step faults exactly on CALL with a full stack and RET with an empty one
(60_exceptions.md R223 to R227). -/
def Obligations.DefaultStepFaultsExactly : Prop :=
  ∀ s t w, s.fault = false → fetch defaults s = .ok w → step s = .next t →
    (t.fault = true ↔ ((∃ nnn, w = encode (.call nnn)) ∧ s.sp = 16) ∨ ((∃ ign, w = encode (.ret ign)) ∧ s.sp = 0))

/-- A faulted block is stuck until RESET: STEP changes nothing, the host may still read the framebuffer and write the key
vector, and only RESET clears the latch (60_exceptions.md R229). -/
def Obligations.FaultedBlockStuck : Prop :=
  (∀ s, s.fault = true → step s = .next s) ∧
  ∀ (c : Config) (σ : Session), σ.core.fault = true →
    (∀ r, transact c (.step r) σ = .next ({ σ with loadable := false }, .done)) ∧
    (∀ k b, transact c (.keySet k b) σ =
      .next ({ σ with core := { σ.core with keys := σ.core.keys.set k.val b k.isLt } }, .done)) ∧
    (∀ x y, x < c.fbW → y < c.fbH → fbRead c σ.core x y = some (Framebuffer.lit σ.core.fb (x, y))) ∧
    (∀ t σ' rep, t ≠ .reset → transact c t σ = .next (σ', rep) →
      faultPorts σ'.core = faultPorts σ.core) ∧
    (∀ σ' rep, transact c .reset σ = .next (σ', rep) → σ'.core.fault = false)

/-- The timer phase: on every step that does not fault each timer, on its value after the handler, goes down by one and
stops at zero (40_cycle_dispatch.md R96). -/
def Obligations.TimersCountDown : Prop :=
  ∀ c r s t w, s.fault = false → fetch c s = .ok w → stepWith c r s = .next t → t.fault = false →
    t.dt.toNat = (match decodeWord w with | .ldDtVx x => (s.readV x).toNat | _ => s.dt.toNat) - 1 ∧
    t.st.toNat = (match decodeWord w with | .ldStVx x => (s.readV x).toNat | _ => s.st.toNat) - 1

/-- The no-op: every word of the no-op space changes PC by the fetch advance and the timers, nothing else
(40_cycle_dispatch.md R98). -/
def Obligations.NopAdvancesOnly : Prop :=
  (∀ w s, exec (.nop w) s = .next s) ∧
  ∀ c r s w, s.fault = false → fetch c s = .ok w → isNoopWord w = true →
    stepWith c r s = .next { s with pc := s.pc + 2, dt := if s.dt = 0 then 0 else s.dt - 1,
                                    st := if s.st = 0 then 0 else s.st - 1 }

/-- A step from an idle state changes nothing but the timers, and leaves it idle (60_exceptions.md R242). -/
def Obligations.IdleChangesOnlyTimers : Prop :=
  ∀ s : State, s.Idle defaults →
    ∃ t, step s = .next t ∧ t.Idle defaults ∧ t = { s with dt := t.dt, st := t.st }

/-! ## Invariants -/

/-- The reset state is well formed, for the default parameters and any others. -/
def Obligations.ResetWellFormed : Prop := State.reset.Inv ∧ ∀ c, (State.resetWith c).Wf c

/-- Every step keeps the state well formed: memory and framebuffer canonical and inside their sizes, the fault latch
consistent (10_state.md R30, R33; 20_memory.md R50; 60_exceptions.md R221). -/
def Obligations.StepKeepsWellFormed : Prop := ∀ s t : State, s.Inv → step s = .next t → t.Inv

/-- Every transaction of the host keeps the block well formed, for every legal choice of parameters (00_scope.md R7, R8). -/
def Obligations.TransactionsKeepWellFormed : Prop :=
  ∀ (c : Config) (tr : Transaction) (σ σ' : Session) (rep : Report), c.Legal → σ.core.Wf c →
    transact c tr σ = .next (σ', rep) → σ'.core.Wf c

/-! ## Who writes what -/

/-- Only LD I, ADD I and LD F write I (10_state.md R24). -/
def Obligations.IndexWriters : Prop :=
  ∀ c r s t, stepWith c r s = .next t → t.i ≠ s.i →
    ∃ w, fetch c s = .ok w ∧ kindNumber (decodeWord w) ∈ [20, 30, 31]

/-- Only LD [I], Vx and LD B, Vx write memory (20_memory.md R52). -/
def Obligations.MemoryWriters : Prop :=
  ∀ c r s t, stepWith c r s = .next t → t.mem ≠ s.mem →
    ∃ w, fetch c s = .ok w ∧ kindNumber (decodeWord w) ∈ [32, 33]

/-- Only DRW and CLS write the framebuffer (10_state.md R30). -/
def Obligations.FramebufferWriters : Prop :=
  ∀ c r s t, stepWith c r s = .next t → t.fb ≠ s.fb →
    ∃ w, fetch c s = .ok w ∧ kindNumber (decodeWord w) ∈ [1, 23]

/-- No step writes the key vector (10_state.md R29). -/
def Obligations.KeysOnlyFromHost : Prop := ∀ c r s t, stepWith c r s = .next t → t.keys = s.keys

/-- Only CALL and RET move SP, only CALL writes an entry, and it writes `S[SP]` alone (10_state.md R25, R26). -/
def Obligations.StackWriters : Prop :=
  ∀ c r s t, stepWith c r s = .next t →
    (t.sp ≠ s.sp → ∃ w, fetch c s = .ok w ∧ kindNumber (decodeWord w) ∈ [2, 4]) ∧
    (∀ j : Nat, t.stack[j]? ≠ s.stack[j]? →
      j = s.sp.val ∧ ∃ w, fetch c s = .ok w ∧ kindNumber (decodeWord w) = 4)

/-- VF changes only by the six flag writers of 10_state.md R22, or by an instruction whose explicit destination is VF. -/
def Obligations.FlagWriters : Prop :=
  ∀ c r s t, stepWith c r s = .next t → t.readV flagReg ≠ s.readV flagReg →
    ∃ w, fetch c s = .ok w ∧
      (kindNumber (decodeWord w) ∈ [14, 15, 16, 17, 18, 23] ∨
        (xOf w = 0xF ∧ kindNumber (decodeWord w) ∈ [8, 9, 10, 11, 12, 13, 22, 26, 27, 34]))

/-- No instruction reads ST: two states that differ in ST alone step to states that differ in ST alone
(10_state.md R28). -/
def Obligations.SoundTimerUnobserved : Prop :=
  ∀ c r (s t : State) b, stepWith c r s = .next t →
    ∃ b', stepWith c r { s with st := b } = .next { t with st := b' }

/-- An entry at or above SP is not read: two states that differ only there step to states that differ only there
(10_state.md R26). -/
def Obligations.StackAboveSpUnobserved : Prop :=
  ∀ c r (s t : State) (stk : Vector Word 16), (∀ j : Nat, j < s.sp.val → stk[j]? = s.stack[j]?) →
    stepWith c r s = .next t →
    ∃ stk' : Vector Word 16, stepWith c r { s with stack := stk } = .next { t with stack := stk' } ∧
      ∀ j : Nat, j < t.sp.val → stk'[j]? = t.stack[j]?

/-! ## Control flow -/

/-- RET pops the return address into PC; on an empty stack it raises STACK_UNDERFLOW (41_control_flow.md R111,
60_exceptions.md R222, R225; that `exec` reads the faulting step's PC as PC - 2 and its
word as the encoding is the model's, log 1). -/
def Obligations.RetPops : Prop :=
  ∀ (ign : Byte) (s : State),
    decodeWord (0x0#4 ++ ign ++ 0xE#4) = .ret ign ∧
    (s.sp ≠ 0 → ∃ t, exec (.ret ign) s = .next t ∧ s.stack[s.sp.val - 1]? = some t.pc ∧
      t.sp.val = s.sp.val - 1 ∧ t = { s with pc := t.pc, sp := t.sp }) ∧
    (s.sp = 0 → exec (.ret ign) s =
      .next { s with pc := s.pc - 2, fault := true, fcause := .stackUnderflow, fpc := s.pc - 2,
                     fword := encode (.ret ign), finfo := 0 })

/-- CALL pushes PC, already advanced past the CALL, and jumps; on a full stack it raises STACK_OVERFLOW
(41_control_flow.md R113, 60_exceptions.md R222, R224; that `exec` reads the faulting step's PC as PC - 2 and its
word as the encoding is the model's, log 1). -/
def Obligations.CallPushes : Prop :=
  ∀ (nnn : Addr12) (s : State),
    decodeWord (0x2#4 ++ nnn) = .call nnn ∧
    (s.sp ≠ 16 → ∃ t, exec (.call nnn) s = .next t ∧ t.pc.toNat = nnn.toNat ∧ t.sp.val = s.sp.val + 1 ∧
      t.stack[s.sp.val]? = some s.pc ∧ (∀ j : Nat, j ≠ s.sp.val → t.stack[j]? = s.stack[j]?) ∧
      t = { s with pc := t.pc, sp := t.sp, stack := t.stack }) ∧
    (s.sp = 16 → exec (.call nnn) s =
      .next { s with pc := s.pc - 2, fault := true, fcause := .stackOverflow, fpc := s.pc - 2,
                     fword := encode (.call nnn), finfo := 16 })

/-- A CALL followed by a RET restores PC to the address after the CALL and SP to its value before it, wherever the RET
stands, and leaves every entry below SP as it was (41_control_flow.md R119). -/
def Obligations.CallThenRetReturns : Prop :=
  ∀ (nnn : Addr12) (ign : Byte) (p : Word) (s : State), s.sp ≠ 16 →
    ∃ t u, exec (.call nnn) s = .next t ∧ exec (.ret ign) { t with pc := p } = .next u ∧
      u = { s with stack := u.stack } ∧ ∀ j : Nat, j ≠ s.sp.val → u.stack[j]? = s.stack[j]?

/-- JP loads the 12-bit target, and changes nothing else (41_control_flow.md R112). -/
def Obligations.JpLoadsTarget : Prop :=
  ∀ (nnn : Addr12) (s : State), decodeWord (0x1#4 ++ nnn) = .jp nnn ∧
    ∃ t, exec (.jp nnn) s = .next t ∧ t.pc.toNat = nnn.toNat ∧ t = { s with pc := t.pc }

/-- JP V0 loads the sum of the 12-bit target and V0, and changes nothing else (41_control_flow.md R114). -/
def Obligations.JpV0LoadsSum : Prop :=
  ∀ (nnn : Addr12) (s : State), decodeWord (0xB#4 ++ nnn) = .jpV0 nnn ∧
    ∃ t, exec (.jpV0 nnn) s = .next t ∧ t.pc.toNat = (nnn.toNat + (s.readV 0).toNat) % 65536 ∧ t = { s with pc := t.pc }

/-- The skips on an immediate: a skip moves PC by 2 more, modulo 65536, and nothing else changes
(41_control_flow.md R115, R116). -/
def Obligations.ImmediateSkips : Prop :=
  ∀ (x : Nibble) (kk : Byte) (s : State),
    decodeWord (0x3#4 ++ x ++ kk) = .seImm x kk ∧ decodeWord (0x4#4 ++ x ++ kk) = .sneImm x kk ∧
    (∃ t, exec (.seImm x kk) s = .next t ∧ t = { s with pc := t.pc } ∧
      t.pc.toNat = if s.readV x = kk then (s.pc.toNat + 2) % 65536 else s.pc.toNat) ∧
    (∃ t, exec (.sneImm x kk) s = .next t ∧ t = { s with pc := t.pc } ∧
      t.pc.toNat = if s.readV x = kk then s.pc.toNat else (s.pc.toNat + 2) % 65536)

/-- The skips on two registers, with the low nibble of the word ignored (41_control_flow.md R117, R118). -/
def Obligations.RegisterSkips : Prop :=
  ∀ (x y ign : Nibble) (s : State),
    decodeWord (0x5#4 ++ x ++ y ++ ign) = .seReg x y ign ∧ decodeWord (0x9#4 ++ x ++ y ++ ign) = .sneReg x y ign ∧
    (∃ t, exec (.seReg x y ign) s = .next t ∧ t = { s with pc := t.pc } ∧
      t.pc.toNat = if s.readV x = s.readV y then (s.pc.toNat + 2) % 65536 else s.pc.toNat) ∧
    (∃ t, exec (.sneReg x y ign) s = .next t ∧ t = { s with pc := t.pc } ∧
      t.pc.toNat = if s.readV x = s.readV y then s.pc.toNat else (s.pc.toNat + 2) % 65536)

/-! ## ALU -/

/-- LD Vx, byte and LD Vx, Vy write V[x] and nothing else (42_alu.md R132, R134). -/
def Obligations.RegisterMoves : Prop :=
  ∀ (x y : Nibble) (kk : Byte) (s : State),
    decodeWord (0x6#4 ++ x ++ kk) = .ldImm x kk ∧ decodeWord (0x8#4 ++ x ++ y ++ 0x0#4) = .ldReg x y ∧
    (∃ t, exec (.ldImm x kk) s = .next t ∧ t.readV x = kk ∧ s.SameButV t x) ∧
    (∃ t, exec (.ldReg x y) s = .next t ∧ t.readV x = s.readV y ∧ s.SameButV t x)

/-- ADD Vx, byte wraps modulo 256 and writes no flag (42_alu.md R133). -/
def Obligations.AddImmediateNoFlag : Prop :=
  ∀ (x : Nibble) (kk : Byte) (s : State), decodeWord (0x7#4 ++ x ++ kk) = .addImm x kk ∧
    ∃ t, exec (.addImm x kk) s = .next t ∧ (t.readV x).toNat = ((s.readV x).toNat + kk.toNat) % 256 ∧ s.SameButV t x

/-- OR, AND and XOR combine bit by bit and write no flag (42_alu.md R135, R136, R137). -/
def Obligations.BitwiseLogicNoFlag : Prop :=
  ∀ (x y : Nibble) (s : State),
    decodeWord (0x8#4 ++ x ++ y ++ 0x1#4) = .orReg x y ∧ decodeWord (0x8#4 ++ x ++ y ++ 0x2#4) = .andReg x y ∧
    decodeWord (0x8#4 ++ x ++ y ++ 0x3#4) = .xorReg x y ∧
    (∃ t, exec (.orReg x y) s = .next t ∧ s.SameButV t x ∧
      ∀ j : Nat, (t.readV x).getLsbD j = ((s.readV x).getLsbD j || (s.readV y).getLsbD j)) ∧
    (∃ t, exec (.andReg x y) s = .next t ∧ s.SameButV t x ∧
      ∀ j : Nat, (t.readV x).getLsbD j = ((s.readV x).getLsbD j && (s.readV y).getLsbD j)) ∧
    (∃ t, exec (.xorReg x y) s = .next t ∧ s.SameButV t x ∧
      ∀ j : Nat, (t.readV x).getLsbD j = ((s.readV x).getLsbD j ^^ (s.readV y).getLsbD j))

/-- ADD Vx, Vy: V[x] is the sum modulo 256 (unless x = F), VF the carry (42_alu.md R138). -/
def Obligations.AddSetsCarry : Prop :=
  ∀ (x y : Nibble) (s : State), decodeWord (0x8#4 ++ x ++ y ++ 0x4#4) = .addReg x y ∧
    ∃ t, exec (.addReg x y) s = .next t ∧
      (x ≠ flagReg → (t.readV x).toNat = ((s.readV x).toNat + (s.readV y).toNat) % 256) ∧
      (t.readV flagReg).toNat = (if 255 < (s.readV x).toNat + (s.readV y).toNat then 1 else 0) ∧ s.SameButVAndFlag t x

/-- SUB and SUBN: V[x] is the difference modulo 256 (unless x = F), VF the no-borrow (42_alu.md R139, R140). -/
def Obligations.SubtractSetsNoBorrow : Prop :=
  ∀ (x y : Nibble) (s : State),
    decodeWord (0x8#4 ++ x ++ y ++ 0x5#4) = .sub x y ∧ decodeWord (0x8#4 ++ x ++ y ++ 0x7#4) = .subn x y ∧
    (∃ t, exec (.sub x y) s = .next t ∧
      (x ≠ flagReg → ((t.readV x).toNat : Int) = (((s.readV x).toNat : Int) - (s.readV y).toNat) % 256) ∧
      (t.readV flagReg).toNat = (if (s.readV x).toNat ≥ (s.readV y).toNat then 1 else 0) ∧ s.SameButVAndFlag t x) ∧
    (∃ t, exec (.subn x y) s = .next t ∧
      (x ≠ flagReg → ((t.readV x).toNat : Int) = (((s.readV y).toNat : Int) - (s.readV x).toNat) % 256) ∧
      (t.readV flagReg).toNat = (if (s.readV y).toNat ≥ (s.readV x).toNat then 1 else 0) ∧ s.SameButVAndFlag t x)

/-- SHR and SHL move V[x] by one bit (unless x = F) and VF is the bit shifted out; the y field is ignored
(42_alu.md R141, R142). -/
def Obligations.ShiftsSetShiftedBit : Prop :=
  ∀ (x ign : Nibble) (s : State),
    decodeWord (0x8#4 ++ x ++ ign ++ 0x6#4) = .shr x ign ∧ decodeWord (0x8#4 ++ x ++ ign ++ 0xE#4) = .shl x ign ∧
    (∃ t, exec (.shr x ign) s = .next t ∧ (x ≠ flagReg → (t.readV x).toNat = (s.readV x).toNat / 2) ∧
      (t.readV flagReg).toNat = (s.readV x).toNat % 2 ∧ s.SameButVAndFlag t x) ∧
    (∃ t, exec (.shl x ign) s = .next t ∧ (x ≠ flagReg → (t.readV x).toNat = (s.readV x).toNat * 2 % 256) ∧
      (t.readV flagReg).toNat = (s.readV x).toNat / 128 ∧ s.SameButVAndFlag t x)

/-- When VF is the destination the flag wins and the result is lost, in all five flag-writing ALU instructions; as an
operand VF is its value before the instruction (42_alu.md R131). -/
def Obligations.FlagWinsOverResult : Prop :=
  ∀ (y : Nibble) (s : State), ∀ p ∈
      [(Instr.addReg flagReg y, decide (255 < (s.readV flagReg).toNat + (s.readV y).toNat)),
       (Instr.sub flagReg y, decide ((s.readV y).toNat ≤ (s.readV flagReg).toNat)),
       (Instr.subn flagReg y, decide ((s.readV flagReg).toNat ≤ (s.readV y).toNat)),
       (Instr.shr flagReg y, (s.readV flagReg).getLsbD 0),
       (Instr.shl flagReg y, (s.readV flagReg).getLsbD 7)],
    ∃ t, exec p.1 s = .next t ∧ t.readV flagReg = (if p.2 then 1 else 0) ∧ s.SameButV t flagReg

/-- RND Vx, byte: for every RND input r, V[x] is r AND the byte (42_alu.md R143); in `exec` the input is the next free
draw, of which nothing is known (log 2, log 3). -/
def Obligations.RndMasksDraw : Prop :=
  ∀ (x : Nibble) (kk : Byte) (s : State), decodeWord (0xC#4 ++ x ++ kk) = .rnd x kk ∧
    (∃ t, exec (.rnd x kk) s = .next t ∧ t.readV x = Config.randomByte s.draws &&& kk ∧
      (∀ z, z ≠ x → t.readV z = s.readV z) ∧ t = { s with v := t.v, draws := s.draws + 1 }) ∧
    ∀ (c : Config) (r : Byte), ∃ t, execWith c r (.rnd x kk) s = .next t ∧ t.readV x = r &&& kk ∧
      (∀ z, z ≠ x → t.readV z = s.readV z) ∧ t = { s with v := t.v, draws := s.draws + 1 }

/-! ## Memory transfer and the index register -/

/-- LD I loads the 12-bit address (43_memory_transfer.md R160). -/
def Obligations.LdILoadsAddress : Prop :=
  ∀ (nnn : Addr12) (s : State), decodeWord (0xA#4 ++ nnn) = .ldI nnn ∧
    ∃ t, exec (.ldI nnn) s = .next t ∧ t.i.toNat = nnn.toNat ∧ t = { s with i := t.i }

/-- ADD I adds modulo 65536 and writes no flag (43_memory_transfer.md R161). -/
def Obligations.AddIWrapsNoFlag : Prop :=
  ∀ (x : Nibble) (s : State), decodeWord (0xF#4 ++ x ++ 0x1E#8) = .addI x ∧
    ∃ t, exec (.addI x) s = .next t ∧ t.i.toNat = (s.i.toNat + (s.readV x).toNat) % 65536 ∧ t = { s with i := t.i }

/-- LD F points I at `FONT_BASE + 5 * V[x]` modulo 65536, with no mask on V[x] (43_memory_transfer.md R165). -/
def Obligations.LdFPointsAtGlyph : Prop :=
  ∀ (x : Nibble) (s : State), decodeWord (0xF#4 ++ x ++ 0x29#8) = .ldF x ∧
    (∃ t, exec (.ldF x) s = .next t ∧ t.i.toNat = 0x050 + 5 * (s.readV x).toNat ∧ t = { s with i := t.i }) ∧
    ∀ (c : Config) (r : Byte), ∃ t, execWith c r (.ldF x) s = .next t ∧
      t.i.toNat = (c.fontBase + 5 * (s.readV x).toNat) % 65536 ∧ t = { s with i := t.i }

/-- LD B stores the three decimal digits of V[x] at I, I + 1, I + 2; under the policy fault the smallest address out of
range is raised and nothing is stored (43_memory_transfer.md R164, 60_exceptions.md R222, R226; that `exec` reads the faulting step's PC as PC - 2 and its
word as the encoding is the model's, log 1). -/
def Obligations.LdBStoresDigits : Prop :=
  ∀ (x : Nibble) (s : State), decodeWord (0xF#4 ++ x ++ 0x33#8) = .ldB x ∧
    (∃ t, exec (.ldB x) s = .next t ∧ StoresDigits defaults s t x) ∧
    ∀ (c : Config) (r : Byte),
      (RunInRange c s 3 → ∃ t, execWith c r (.ldB x) s = .next t ∧ StoresDigits c s t x) ∧
      (¬ RunInRange c s 3 → execWith c r (.ldB x) s = addrRangeAt s (.ldB x) (max s.i.toNat 4096))

/-- LD [I], Vx stores V0 to Vx from I on, I unchanged; under the policy fault the smallest address out of range is raised
and nothing is stored (43_memory_transfer.md R162, 60_exceptions.md R222, R226; that `exec` reads the faulting step's PC as PC - 2 and its
word as the encoding is the model's, log 1). -/
def Obligations.LdMemStoresRun : Prop :=
  ∀ (x : Nibble) (s : State), decodeWord (0xF#4 ++ x ++ 0x55#8) = .ldMemVx x ∧
    (∃ t, exec (.ldMemVx x) s = .next t ∧ StoresRegs defaults s t x) ∧
    ∀ (c : Config) (r : Byte),
      (RunInRange c s (x.toNat + 1) → ∃ t, execWith c r (.ldMemVx x) s = .next t ∧ StoresRegs c s t x) ∧
      (¬ RunInRange c s (x.toNat + 1) →
        execWith c r (.ldMemVx x) s = addrRangeAt s (.ldMemVx x) (max s.i.toNat 4096))

/-- LD Vx, [I] loads V0 to Vx from I on, I unchanged; under the policy fault the smallest address out of range is raised
and nothing is loaded (43_memory_transfer.md R163, 60_exceptions.md R222, R226; that `exec` reads the faulting step's PC as PC - 2 and its
word as the encoding is the model's, log 1). -/
def Obligations.LdRegsLoadsRun : Prop :=
  ∀ (x : Nibble) (s : State), decodeWord (0xF#4 ++ x ++ 0x65#8) = .ldVxMem x ∧
    (∃ t, exec (.ldVxMem x) s = .next t ∧ LoadsRegs defaults s t x) ∧
    ∀ (c : Config) (r : Byte),
      (RunInRange c s (x.toNat + 1) → ∃ t, execWith c r (.ldVxMem x) s = .next t ∧ LoadsRegs c s t x) ∧
      (¬ RunInRange c s (x.toNat + 1) →
        execWith c r (.ldVxMem x) s = addrRangeAt s (.ldVxMem x) (max s.i.toNat 4096))

/-- Stored bytes are fetched as an instruction by a later fetch at their address, with nothing in between
(20_memory.md R61; 70_reset_and_hazards.md R258). -/
def Obligations.StoredWordIsFetched : Prop :=
  ∀ (x : Nibble) (s : State), 1 ≤ x.toNat →
    ∃ t, exec (.ldMemVx x) s = .next t ∧
      ∀ u : State, u.mem = t.mem → u.pc = s.i → fetch defaults u = .ok (s.readV 0 ++ s.readV 1)

/-! ## Timers and input -/

/-- LD Vx, DT reads the timer as it is before the step's timer phase (44_timers_input.md R180). -/
def Obligations.LdVxDtReadsTimer : Prop :=
  ∀ (x : Nibble) (s : State), decodeWord (0xF#4 ++ x ++ 0x07#8) = .ldVxDt x ∧
    (∃ t, exec (.ldVxDt x) s = .next t ∧ t.readV x = s.dt ∧ s.SameButV t x) ∧
    (s.fault = false → fetch defaults s = .ok (0xF#4 ++ x ++ 0x07#8) →
      ∃ t, step s = .next t ∧ t.readV x = s.dt ∧ t.dt.toNat = s.dt.toNat - 1)

/-- LD DT and LD ST set their timer; the same step's timer phase then takes one off (44_timers_input.md R181, R182). -/
def Obligations.TimerWritesThenTick : Prop :=
  ∀ (x : Nibble) (s : State),
    decodeWord (0xF#4 ++ x ++ 0x15#8) = .ldDtVx x ∧ decodeWord (0xF#4 ++ x ++ 0x18#8) = .ldStVx x ∧
    exec (.ldDtVx x) s = .next { s with dt := s.readV x } ∧ exec (.ldStVx x) s = .next { s with st := s.readV x } ∧
    (s.fault = false → fetch defaults s = .ok (0xF#4 ++ x ++ 0x15#8) →
      ∃ t, step s = .next t ∧ t.dt.toNat = (s.readV x).toNat - 1) ∧
    (s.fault = false → fetch defaults s = .ok (0xF#4 ++ x ++ 0x18#8) →
      ∃ t, step s = .next t ∧ t.st.toNat = (s.readV x).toNat - 1)

/-- SKP and SKNP skip on the state of key V[x] modulo 16; under the policy fault a number of 16 or more raises KEY_RANGE
(44_timers_input.md R183, R184; 60_exceptions.md R222, R227; that `exec` reads the faulting step's PC as PC - 2 and its
word as the encoding is the model's, log 1). -/
def Obligations.KeySkips : Prop :=
  ∀ (x ign : Nibble) (s : State),
    decodeWord (0xE#4 ++ x ++ ign ++ 0xE#4) = .skp x ign ∧ decodeWord (0xE#4 ++ x ++ ign ++ 0x1#4) = .sknp x ign ∧
    exec (.skp x ign) s =
      .next (if s.keyDown (Fin.ofNat 16 (s.readV x).toNat) then { s with pc := s.pc + 2 } else s) ∧
    exec (.sknp x ign) s =
      .next (if s.keyDown (Fin.ofNat 16 (s.readV x).toNat) then s else { s with pc := s.pc + 2 }) ∧
    ∀ (c : Config) (r : Byte),
      ((c.oob = .wrap ∨ (s.readV x).toNat < 16) → execWith c r (.skp x ign) s = exec (.skp x ign) s ∧
        execWith c r (.sknp x ign) s = exec (.sknp x ign) s) ∧
      (c.oob = .fault → 16 ≤ (s.readV x).toNat → ∀ i ∈ [Instr.skp x ign, Instr.sknp x ign],
        execWith c r i s = .next { s with pc := s.pc - 2, fault := true, fcause := .keyRange, fpc := s.pc - 2,
                                          fword := encode i, finfo := (s.readV x).setWidth 16 })

/-- LD Vx, K takes the lowest pressed key; with none pressed it goes back to its own address, so that the step changes only
the timers (44_timers_input.md R185). -/
def Obligations.WaitKeyTakesLowest : Prop :=
  ∀ (x : Nibble) (s : State), decodeWord (0xF#4 ++ x ++ 0x0A#8) = .ldVxK x ∧
    (∀ k, s.keyDown k = true → (∀ j, j < k → s.keyDown j = false) →
      ∃ t, exec (.ldVxK x) s = .next t ∧ (t.readV x).toNat = k.val ∧ s.SameButV t x) ∧
    ((∀ k, s.keyDown k = false) → exec (.ldVxK x) s = .next { s with pc := s.pc - 2 }) ∧
    ((∀ k, s.keyDown k = false) → s.fault = false → fetch defaults s = .ok (0xF#4 ++ x ++ 0x0A#8) →
      ∃ t, step s = .next t ∧ t = { s with dt := t.dt, st := t.st } ∧
        t.dt.toNat = s.dt.toNat - 1 ∧ t.st.toNat = s.st.toNat - 1)

/-! ## Display -/

/-- CLS clears every pixel and nothing else; zero-filled memory runs as CLS (45_display.md R202). -/
def Obligations.ClsClearsEveryPixel : Prop :=
  ∀ (ign : Byte) (s : State), decodeWord (0x0#4 ++ ign ++ 0x0#4) = .cls ign ∧
    (∃ t, exec (.cls ign) s = .next t ∧ (∀ X Y, X < 64 → Y < 32 → fbRead defaults t.toBlock X Y = some false) ∧
      (∀ p, Framebuffer.lit t.fb p = false) ∧ t = { s with fb := t.fb }) ∧
    (s.fault = false → fetch defaults s = .ok 0 →
      ∃ t, step s = .next t ∧ t.pc = s.pc + 2 ∧ (∀ p, Framebuffer.lit t.fb p = false) ∧
        t = { s with fb := t.fb, pc := t.pc, dt := t.dt, st := t.st })

/-- DRW XORs the sprite into the visible pixels, clips the rest, and reports the collision in VF; under the policy fault
the smallest row address out of range is raised (45_display.md R200, 60_exceptions.md R222, R226; that `exec` reads the faulting step's PC as PC - 2 and its
word as the encoding is the model's, log 1). -/
def Obligations.DrawXorsAndCollides : Prop :=
  ∀ (x y n : Nibble) (s : State), decodeWord (0xD#4 ++ x ++ y ++ n) = .drw x y n ∧
    (∃ t, exec (.drw x y n) s = .next t ∧ DrawsSprite defaults s t x y n) ∧
    ∀ (c : Config) (r : Byte),
      (n = 0 ∨ RunInRange c s n.toNat → ∃ t, execWith c r (.drw x y n) s = .next t ∧ DrawsSprite c s t x y n) ∧
      (n ≠ 0 → ¬ RunInRange c s n.toNat →
        execWith c r (.drw x y n) s = addrRangeAt s (.drw x y n) (max s.i.toNat 4096))

/-- Drawing the same sprite twice at the same position restores the framebuffer; the second draw collides exactly when some
visible set bit covers a pixel that was clear before the first, so it does if the first draw did not collide and the sprite
has a visible set bit (45_display.md R201). The position is the same only if neither coordinate register is VF. -/
def Obligations.DrawTwiceRestores : Prop :=
  ∀ (x y n : Nibble) (s : State), x ≠ flagReg → y ≠ flagReg → Framebuffer.Wf defaults s.fb →
    ∃ t u, exec (.drw x y n) s = .next t ∧ exec (.drw x y n) t = .next u ∧ u.fb = s.fb ∧
      (u.readV flagReg = 1 ↔ ∃ X Y, X < 64 ∧ Y < 32 ∧ drawsAt defaults s x y n X Y = true ∧
        Framebuffer.lit s.fb (X, Y) = false) ∧
      (t.readV flagReg = 0 → (∃ X Y, X < 64 ∧ Y < 32 ∧ drawsAt defaults s x y n X Y = true) → u.readV flagReg = 1)

/-! ## Reset and the host -/

/-- RESET gives every state element its reset value, whatever the state was: memory zero but for the glyph table at
`FONT_BASE`, PC at `LOAD_BASE`, all else 0 (70_reset_and_hazards.md R250, 20_memory.md R58). -/
def Obligations.ResetValues : Prop :=
  State.reset.pc = 0x200 ∧ (∀ old, State.reset.toBlock = hostReset defaults old) ∧
  ∀ (c : Config) (old : Block), let s := hostReset c old
    s.pc = BitVec.ofNat 16 c.loadBase ∧ s.i = 0 ∧ s.sp = 0 ∧ s.dt = 0 ∧ s.st = 0 ∧
    faultPorts s = (false, 0, 0, 0, 0) ∧
    (∀ z, s.readV z = 0) ∧ (∀ j : Nat, j < 16 → s.stack[j]? = some 0) ∧ (∀ k, s.keyDown k = false) ∧
    (∀ p, Framebuffer.lit s.fb p = false) ∧
    (∀ a, a < c.fontBase ∨ c.fontBase + 80 ≤ a → s.byteAt c a = 0) ∧
    (∀ j b, ([0xF0, 0x90, 0x90, 0x90, 0xF0, 0x20, 0x60, 0x20, 0x20, 0x70, 0xF0, 0x10, 0xF0, 0x80, 0xF0, 0xF0, 0x10, 0xF0, 0x10, 0xF0,
        0x90, 0x90, 0xF0, 0x10, 0x10, 0xF0, 0x80, 0xF0, 0x10, 0xF0, 0xF0, 0x80, 0xF0, 0x90, 0xF0, 0xF0, 0x10, 0x20, 0x40, 0x40,
        0xF0, 0x90, 0xF0, 0x90, 0xF0, 0xF0, 0x90, 0xF0, 0x10, 0xF0, 0xF0, 0x90, 0xF0, 0x90, 0x90, 0xE0, 0x90, 0xE0, 0x90, 0xE0,
        0xF0, 0x80, 0x80, 0x80, 0xF0, 0xE0, 0x90, 0x90, 0x90, 0xE0, 0xF0, 0x80, 0xF0, 0x80, 0xF0, 0xF0, 0x80, 0xF0, 0x80, 0x80] : List Byte)[j]? = some b →
      s.byteAt c (c.fontBase + j) = b)

/-- LOAD writes the image at `LOAD_BASE` and nothing else, or rejects an image that does not fit and writes nothing; it is
legal once, after RESET and before the first STEP, and refused by name at any other time (70_reset_and_hazards.md R254,
R255; log 10). -/
def Obligations.LoadWritesImage : Prop :=
  ∀ (c : Config) (image : List Byte) (s : Block),
    (image.length ≤ c.maxImage → ∃ t, hostLoad c image s = (t, .accepted) ∧
      (∀ j b, image[j]? = some b → t.byteAt c (c.loadBase + j) = b) ∧
      (∀ a, a < c.loadBase ∨ c.loadBase + image.length ≤ a → t.byteAt c a = s.byteAt c a) ∧ t = { s with mem := t.mem }) ∧
    (c.maxImage < image.length → hostLoad c image s = (s, .rejected)) ∧
    (transact c (.load image) { core := s, loadable := true } =
      .next ({ core := (hostLoad c image s).1, loadable := false }, (hostLoad c image s).2)) ∧
    (transact c (.load image) { core := s, loadable := false } = .refused .loadOutOfOrder) ∧
    (∀ b, transact c .reset { core := s, loadable := b } = .next ({ core := Block.resetWith c, loadable := true }, .done)) ∧
    (∀ r b σ rep, transact c (.step r) { core := s, loadable := b } = .next (σ, rep) → σ.loadable = false)
end

