-- ==== Sys2Proof/Laws/State.lean ====
section
/-! SUPPORT. What each update of the state leaves in each field: one lemma per field per update, all true by definition. -/

namespace Sys2Proof.Machine

variable (s : State)

/-! ### setMem -/

@[simp] theorem State.setMem_mem (m : Memory) : (s.setMem m).mem = m := rfl
@[simp] theorem State.setMem_v (m : Memory) : (s.setMem m).v = s.v := rfl
@[simp] theorem State.setMem_i (m : Memory) : (s.setMem m).i = s.i := rfl
@[simp] theorem State.setMem_pc (m : Memory) : (s.setMem m).pc = s.pc := rfl
@[simp] theorem State.setMem_sp (m : Memory) : (s.setMem m).sp = s.sp := rfl
@[simp] theorem State.setMem_stack (m : Memory) : (s.setMem m).stack = s.stack := rfl
@[simp] theorem State.setMem_dt (m : Memory) : (s.setMem m).dt = s.dt := rfl
@[simp] theorem State.setMem_st (m : Memory) : (s.setMem m).st = s.st := rfl
@[simp] theorem State.setMem_keys (m : Memory) : (s.setMem m).keys = s.keys := rfl
@[simp] theorem State.setMem_fb (m : Memory) : (s.setMem m).fb = s.fb := rfl
@[simp] theorem State.setMem_fault (m : Memory) : (s.setMem m).fault = s.fault := rfl
@[simp] theorem State.setMem_fcause (m : Memory) : (s.setMem m).fcause = s.fcause := rfl
@[simp] theorem State.setMem_fpc (m : Memory) : (s.setMem m).fpc = s.fpc := rfl
@[simp] theorem State.setMem_fword (m : Memory) : (s.setMem m).fword = s.fword := rfl
@[simp] theorem State.setMem_finfo (m : Memory) : (s.setMem m).finfo = s.finfo := rfl
@[simp] theorem State.setMem_draws (m : Memory) : (s.setMem m).draws = s.draws := rfl

/-! ### setRegs -/

@[simp] theorem State.setRegs_mem (v : Vector Byte 16) : (s.setRegs v).mem = s.mem := rfl
@[simp] theorem State.setRegs_v (v : Vector Byte 16) : (s.setRegs v).v = v := rfl
@[simp] theorem State.setRegs_i (v : Vector Byte 16) : (s.setRegs v).i = s.i := rfl
@[simp] theorem State.setRegs_pc (v : Vector Byte 16) : (s.setRegs v).pc = s.pc := rfl
@[simp] theorem State.setRegs_sp (v : Vector Byte 16) : (s.setRegs v).sp = s.sp := rfl
@[simp] theorem State.setRegs_stack (v : Vector Byte 16) : (s.setRegs v).stack = s.stack := rfl
@[simp] theorem State.setRegs_dt (v : Vector Byte 16) : (s.setRegs v).dt = s.dt := rfl
@[simp] theorem State.setRegs_st (v : Vector Byte 16) : (s.setRegs v).st = s.st := rfl
@[simp] theorem State.setRegs_keys (v : Vector Byte 16) : (s.setRegs v).keys = s.keys := rfl
@[simp] theorem State.setRegs_fb (v : Vector Byte 16) : (s.setRegs v).fb = s.fb := rfl
@[simp] theorem State.setRegs_fault (v : Vector Byte 16) : (s.setRegs v).fault = s.fault := rfl
@[simp] theorem State.setRegs_fcause (v : Vector Byte 16) : (s.setRegs v).fcause = s.fcause := rfl
@[simp] theorem State.setRegs_fpc (v : Vector Byte 16) : (s.setRegs v).fpc = s.fpc := rfl
@[simp] theorem State.setRegs_fword (v : Vector Byte 16) : (s.setRegs v).fword = s.fword := rfl
@[simp] theorem State.setRegs_finfo (v : Vector Byte 16) : (s.setRegs v).finfo = s.finfo := rfl
@[simp] theorem State.setRegs_draws (v : Vector Byte 16) : (s.setRegs v).draws = s.draws := rfl

/-! ### setI -/

@[simp] theorem State.setI_mem (w : Word) : (s.setI w).mem = s.mem := rfl
@[simp] theorem State.setI_v (w : Word) : (s.setI w).v = s.v := rfl
@[simp] theorem State.setI_i (w : Word) : (s.setI w).i = w := rfl
@[simp] theorem State.setI_pc (w : Word) : (s.setI w).pc = s.pc := rfl
@[simp] theorem State.setI_sp (w : Word) : (s.setI w).sp = s.sp := rfl
@[simp] theorem State.setI_stack (w : Word) : (s.setI w).stack = s.stack := rfl
@[simp] theorem State.setI_dt (w : Word) : (s.setI w).dt = s.dt := rfl
@[simp] theorem State.setI_st (w : Word) : (s.setI w).st = s.st := rfl
@[simp] theorem State.setI_keys (w : Word) : (s.setI w).keys = s.keys := rfl
@[simp] theorem State.setI_fb (w : Word) : (s.setI w).fb = s.fb := rfl
@[simp] theorem State.setI_fault (w : Word) : (s.setI w).fault = s.fault := rfl
@[simp] theorem State.setI_fcause (w : Word) : (s.setI w).fcause = s.fcause := rfl
@[simp] theorem State.setI_fpc (w : Word) : (s.setI w).fpc = s.fpc := rfl
@[simp] theorem State.setI_fword (w : Word) : (s.setI w).fword = s.fword := rfl
@[simp] theorem State.setI_finfo (w : Word) : (s.setI w).finfo = s.finfo := rfl
@[simp] theorem State.setI_draws (w : Word) : (s.setI w).draws = s.draws := rfl

/-! ### setPc -/

@[simp] theorem State.setPc_mem (w : Word) : (s.setPc w).mem = s.mem := rfl
@[simp] theorem State.setPc_v (w : Word) : (s.setPc w).v = s.v := rfl
@[simp] theorem State.setPc_i (w : Word) : (s.setPc w).i = s.i := rfl
@[simp] theorem State.setPc_pc (w : Word) : (s.setPc w).pc = w := rfl
@[simp] theorem State.setPc_sp (w : Word) : (s.setPc w).sp = s.sp := rfl
@[simp] theorem State.setPc_stack (w : Word) : (s.setPc w).stack = s.stack := rfl
@[simp] theorem State.setPc_dt (w : Word) : (s.setPc w).dt = s.dt := rfl
@[simp] theorem State.setPc_st (w : Word) : (s.setPc w).st = s.st := rfl
@[simp] theorem State.setPc_keys (w : Word) : (s.setPc w).keys = s.keys := rfl
@[simp] theorem State.setPc_fb (w : Word) : (s.setPc w).fb = s.fb := rfl
@[simp] theorem State.setPc_fault (w : Word) : (s.setPc w).fault = s.fault := rfl
@[simp] theorem State.setPc_fcause (w : Word) : (s.setPc w).fcause = s.fcause := rfl
@[simp] theorem State.setPc_fpc (w : Word) : (s.setPc w).fpc = s.fpc := rfl
@[simp] theorem State.setPc_fword (w : Word) : (s.setPc w).fword = s.fword := rfl
@[simp] theorem State.setPc_finfo (w : Word) : (s.setPc w).finfo = s.finfo := rfl
@[simp] theorem State.setPc_draws (w : Word) : (s.setPc w).draws = s.draws := rfl

/-! ### setStack -/

@[simp] theorem State.setStack_mem (st : Vector Word 16) (p : Fin 17) : (s.setStack st p).mem = s.mem := rfl
@[simp] theorem State.setStack_v (st : Vector Word 16) (p : Fin 17) : (s.setStack st p).v = s.v := rfl
@[simp] theorem State.setStack_i (st : Vector Word 16) (p : Fin 17) : (s.setStack st p).i = s.i := rfl
@[simp] theorem State.setStack_pc (st : Vector Word 16) (p : Fin 17) : (s.setStack st p).pc = s.pc := rfl
@[simp] theorem State.setStack_sp (st : Vector Word 16) (p : Fin 17) : (s.setStack st p).sp = p := rfl
@[simp] theorem State.setStack_stack (st : Vector Word 16) (p : Fin 17) : (s.setStack st p).stack = st := rfl
@[simp] theorem State.setStack_dt (st : Vector Word 16) (p : Fin 17) : (s.setStack st p).dt = s.dt := rfl
@[simp] theorem State.setStack_st (st : Vector Word 16) (p : Fin 17) : (s.setStack st p).st = s.st := rfl
@[simp] theorem State.setStack_keys (st : Vector Word 16) (p : Fin 17) : (s.setStack st p).keys = s.keys := rfl
@[simp] theorem State.setStack_fb (st : Vector Word 16) (p : Fin 17) : (s.setStack st p).fb = s.fb := rfl
@[simp] theorem State.setStack_fault (st : Vector Word 16) (p : Fin 17) : (s.setStack st p).fault = s.fault := rfl
@[simp] theorem State.setStack_fcause (st : Vector Word 16) (p : Fin 17) : (s.setStack st p).fcause = s.fcause := rfl
@[simp] theorem State.setStack_fpc (st : Vector Word 16) (p : Fin 17) : (s.setStack st p).fpc = s.fpc := rfl
@[simp] theorem State.setStack_fword (st : Vector Word 16) (p : Fin 17) : (s.setStack st p).fword = s.fword := rfl
@[simp] theorem State.setStack_finfo (st : Vector Word 16) (p : Fin 17) : (s.setStack st p).finfo = s.finfo := rfl
@[simp] theorem State.setStack_draws (st : Vector Word 16) (p : Fin 17) : (s.setStack st p).draws = s.draws := rfl

/-! ### setDt -/

@[simp] theorem State.setDt_mem (b : Byte) : (s.setDt b).mem = s.mem := rfl
@[simp] theorem State.setDt_v (b : Byte) : (s.setDt b).v = s.v := rfl
@[simp] theorem State.setDt_i (b : Byte) : (s.setDt b).i = s.i := rfl
@[simp] theorem State.setDt_pc (b : Byte) : (s.setDt b).pc = s.pc := rfl
@[simp] theorem State.setDt_sp (b : Byte) : (s.setDt b).sp = s.sp := rfl
@[simp] theorem State.setDt_stack (b : Byte) : (s.setDt b).stack = s.stack := rfl
@[simp] theorem State.setDt_dt (b : Byte) : (s.setDt b).dt = b := rfl
@[simp] theorem State.setDt_st (b : Byte) : (s.setDt b).st = s.st := rfl
@[simp] theorem State.setDt_keys (b : Byte) : (s.setDt b).keys = s.keys := rfl
@[simp] theorem State.setDt_fb (b : Byte) : (s.setDt b).fb = s.fb := rfl
@[simp] theorem State.setDt_fault (b : Byte) : (s.setDt b).fault = s.fault := rfl
@[simp] theorem State.setDt_fcause (b : Byte) : (s.setDt b).fcause = s.fcause := rfl
@[simp] theorem State.setDt_fpc (b : Byte) : (s.setDt b).fpc = s.fpc := rfl
@[simp] theorem State.setDt_fword (b : Byte) : (s.setDt b).fword = s.fword := rfl
@[simp] theorem State.setDt_finfo (b : Byte) : (s.setDt b).finfo = s.finfo := rfl
@[simp] theorem State.setDt_draws (b : Byte) : (s.setDt b).draws = s.draws := rfl

/-! ### setSt -/

@[simp] theorem State.setSt_mem (b : Byte) : (s.setSt b).mem = s.mem := rfl
@[simp] theorem State.setSt_v (b : Byte) : (s.setSt b).v = s.v := rfl
@[simp] theorem State.setSt_i (b : Byte) : (s.setSt b).i = s.i := rfl
@[simp] theorem State.setSt_pc (b : Byte) : (s.setSt b).pc = s.pc := rfl
@[simp] theorem State.setSt_sp (b : Byte) : (s.setSt b).sp = s.sp := rfl
@[simp] theorem State.setSt_stack (b : Byte) : (s.setSt b).stack = s.stack := rfl
@[simp] theorem State.setSt_dt (b : Byte) : (s.setSt b).dt = s.dt := rfl
@[simp] theorem State.setSt_st (b : Byte) : (s.setSt b).st = b := rfl
@[simp] theorem State.setSt_keys (b : Byte) : (s.setSt b).keys = s.keys := rfl
@[simp] theorem State.setSt_fb (b : Byte) : (s.setSt b).fb = s.fb := rfl
@[simp] theorem State.setSt_fault (b : Byte) : (s.setSt b).fault = s.fault := rfl
@[simp] theorem State.setSt_fcause (b : Byte) : (s.setSt b).fcause = s.fcause := rfl
@[simp] theorem State.setSt_fpc (b : Byte) : (s.setSt b).fpc = s.fpc := rfl
@[simp] theorem State.setSt_fword (b : Byte) : (s.setSt b).fword = s.fword := rfl
@[simp] theorem State.setSt_finfo (b : Byte) : (s.setSt b).finfo = s.finfo := rfl
@[simp] theorem State.setSt_draws (b : Byte) : (s.setSt b).draws = s.draws := rfl

/-! ### setKey -/

@[simp] theorem Block.setKey_mem (s : Block) (k : Fin 16) (b : Bool) : (s.setKey k b).mem = s.mem := rfl
@[simp] theorem Block.setKey_v (s : Block) (k : Fin 16) (b : Bool) : (s.setKey k b).v = s.v := rfl
@[simp] theorem Block.setKey_i (s : Block) (k : Fin 16) (b : Bool) : (s.setKey k b).i = s.i := rfl
@[simp] theorem Block.setKey_pc (s : Block) (k : Fin 16) (b : Bool) : (s.setKey k b).pc = s.pc := rfl
@[simp] theorem Block.setKey_sp (s : Block) (k : Fin 16) (b : Bool) : (s.setKey k b).sp = s.sp := rfl
@[simp] theorem Block.setKey_stack (s : Block) (k : Fin 16) (b : Bool) : (s.setKey k b).stack = s.stack := rfl
@[simp] theorem Block.setKey_dt (s : Block) (k : Fin 16) (b : Bool) : (s.setKey k b).dt = s.dt := rfl
@[simp] theorem Block.setKey_st (s : Block) (k : Fin 16) (b : Bool) : (s.setKey k b).st = s.st := rfl
@[simp] theorem Block.setKey_keys (s : Block) (k : Fin 16) (b : Bool) : (s.setKey k b).keys = s.keys.set k.val b k.isLt := rfl
@[simp] theorem Block.setKey_fb (s : Block) (k : Fin 16) (b : Bool) : (s.setKey k b).fb = s.fb := rfl
@[simp] theorem Block.setKey_fault (s : Block) (k : Fin 16) (b : Bool) : (s.setKey k b).fault = s.fault := rfl
@[simp] theorem Block.setKey_fcause (s : Block) (k : Fin 16) (b : Bool) : (s.setKey k b).fcause = s.fcause := rfl
@[simp] theorem Block.setKey_fpc (s : Block) (k : Fin 16) (b : Bool) : (s.setKey k b).fpc = s.fpc := rfl
@[simp] theorem Block.setKey_fword (s : Block) (k : Fin 16) (b : Bool) : (s.setKey k b).fword = s.fword := rfl
@[simp] theorem Block.setKey_finfo (s : Block) (k : Fin 16) (b : Bool) : (s.setKey k b).finfo = s.finfo := rfl

/-! ### setFb -/

@[simp] theorem State.setFb_mem (fb : Framebuffer) : (s.setFb fb).mem = s.mem := rfl
@[simp] theorem State.setFb_v (fb : Framebuffer) : (s.setFb fb).v = s.v := rfl
@[simp] theorem State.setFb_i (fb : Framebuffer) : (s.setFb fb).i = s.i := rfl
@[simp] theorem State.setFb_pc (fb : Framebuffer) : (s.setFb fb).pc = s.pc := rfl
@[simp] theorem State.setFb_sp (fb : Framebuffer) : (s.setFb fb).sp = s.sp := rfl
@[simp] theorem State.setFb_stack (fb : Framebuffer) : (s.setFb fb).stack = s.stack := rfl
@[simp] theorem State.setFb_dt (fb : Framebuffer) : (s.setFb fb).dt = s.dt := rfl
@[simp] theorem State.setFb_st (fb : Framebuffer) : (s.setFb fb).st = s.st := rfl
@[simp] theorem State.setFb_keys (fb : Framebuffer) : (s.setFb fb).keys = s.keys := rfl
@[simp] theorem State.setFb_fb (fb : Framebuffer) : (s.setFb fb).fb = fb := rfl
@[simp] theorem State.setFb_fault (fb : Framebuffer) : (s.setFb fb).fault = s.fault := rfl
@[simp] theorem State.setFb_fcause (fb : Framebuffer) : (s.setFb fb).fcause = s.fcause := rfl
@[simp] theorem State.setFb_fpc (fb : Framebuffer) : (s.setFb fb).fpc = s.fpc := rfl
@[simp] theorem State.setFb_fword (fb : Framebuffer) : (s.setFb fb).fword = s.fword := rfl
@[simp] theorem State.setFb_finfo (fb : Framebuffer) : (s.setFb fb).finfo = s.finfo := rfl
@[simp] theorem State.setFb_draws (fb : Framebuffer) : (s.setFb fb).draws = s.draws := rfl

/-! ### nextDraw -/

@[simp] theorem State.nextDraw_mem : (s.nextDraw).mem = s.mem := rfl
@[simp] theorem State.nextDraw_v : (s.nextDraw).v = s.v := rfl
@[simp] theorem State.nextDraw_i : (s.nextDraw).i = s.i := rfl
@[simp] theorem State.nextDraw_pc : (s.nextDraw).pc = s.pc := rfl
@[simp] theorem State.nextDraw_sp : (s.nextDraw).sp = s.sp := rfl
@[simp] theorem State.nextDraw_stack : (s.nextDraw).stack = s.stack := rfl
@[simp] theorem State.nextDraw_dt : (s.nextDraw).dt = s.dt := rfl
@[simp] theorem State.nextDraw_st : (s.nextDraw).st = s.st := rfl
@[simp] theorem State.nextDraw_keys : (s.nextDraw).keys = s.keys := rfl
@[simp] theorem State.nextDraw_fb : (s.nextDraw).fb = s.fb := rfl
@[simp] theorem State.nextDraw_fault : (s.nextDraw).fault = s.fault := rfl
@[simp] theorem State.nextDraw_fcause : (s.nextDraw).fcause = s.fcause := rfl
@[simp] theorem State.nextDraw_fpc : (s.nextDraw).fpc = s.fpc := rfl
@[simp] theorem State.nextDraw_fword : (s.nextDraw).fword = s.fword := rfl
@[simp] theorem State.nextDraw_finfo : (s.nextDraw).finfo = s.finfo := rfl
@[simp] theorem State.nextDraw_draws : (s.nextDraw).draws = s.draws + 1 := rfl

/-! ### takeFault -/

@[simp] theorem State.takeFault_mem (p w : Word) (e : Trap) : (s.takeFault p w e).mem = s.mem := rfl
@[simp] theorem State.takeFault_v (p w : Word) (e : Trap) : (s.takeFault p w e).v = s.v := rfl
@[simp] theorem State.takeFault_i (p w : Word) (e : Trap) : (s.takeFault p w e).i = s.i := rfl
@[simp] theorem State.takeFault_pc (p w : Word) (e : Trap) : (s.takeFault p w e).pc = p := rfl
@[simp] theorem State.takeFault_sp (p w : Word) (e : Trap) : (s.takeFault p w e).sp = s.sp := rfl
@[simp] theorem State.takeFault_stack (p w : Word) (e : Trap) : (s.takeFault p w e).stack = s.stack := rfl
@[simp] theorem State.takeFault_dt (p w : Word) (e : Trap) : (s.takeFault p w e).dt = s.dt := rfl
@[simp] theorem State.takeFault_st (p w : Word) (e : Trap) : (s.takeFault p w e).st = s.st := rfl
@[simp] theorem State.takeFault_keys (p w : Word) (e : Trap) : (s.takeFault p w e).keys = s.keys := rfl
@[simp] theorem State.takeFault_fb (p w : Word) (e : Trap) : (s.takeFault p w e).fb = s.fb := rfl
@[simp] theorem State.takeFault_fault (p w : Word) (e : Trap) : (s.takeFault p w e).fault = true := rfl
@[simp] theorem State.takeFault_fcause (p w : Word) (e : Trap) : (s.takeFault p w e).fcause = e.cause := rfl
@[simp] theorem State.takeFault_fpc (p w : Word) (e : Trap) : (s.takeFault p w e).fpc = p := rfl
@[simp] theorem State.takeFault_fword (p w : Word) (e : Trap) : (s.takeFault p w e).fword = w := rfl
@[simp] theorem State.takeFault_finfo (p w : Word) (e : Trap) : (s.takeFault p w e).finfo = e.info := rfl
@[simp] theorem State.takeFault_draws (p w : Word) (e : Trap) : (s.takeFault p w e).draws = s.draws := rfl

/-! ### writeV -/

@[simp] theorem State.writeV_mem (x : Nibble) (b : Byte) : (s.writeV x b).mem = s.mem := rfl
@[simp] theorem State.writeV_v (x : Nibble) (b : Byte) : (s.writeV x b).v = s.v.set x.toNat b x.isLt := rfl
@[simp] theorem State.writeV_i (x : Nibble) (b : Byte) : (s.writeV x b).i = s.i := rfl
@[simp] theorem State.writeV_pc (x : Nibble) (b : Byte) : (s.writeV x b).pc = s.pc := rfl
@[simp] theorem State.writeV_sp (x : Nibble) (b : Byte) : (s.writeV x b).sp = s.sp := rfl
@[simp] theorem State.writeV_stack (x : Nibble) (b : Byte) : (s.writeV x b).stack = s.stack := rfl
@[simp] theorem State.writeV_dt (x : Nibble) (b : Byte) : (s.writeV x b).dt = s.dt := rfl
@[simp] theorem State.writeV_st (x : Nibble) (b : Byte) : (s.writeV x b).st = s.st := rfl
@[simp] theorem State.writeV_keys (x : Nibble) (b : Byte) : (s.writeV x b).keys = s.keys := rfl
@[simp] theorem State.writeV_fb (x : Nibble) (b : Byte) : (s.writeV x b).fb = s.fb := rfl
@[simp] theorem State.writeV_fault (x : Nibble) (b : Byte) : (s.writeV x b).fault = s.fault := rfl
@[simp] theorem State.writeV_fcause (x : Nibble) (b : Byte) : (s.writeV x b).fcause = s.fcause := rfl
@[simp] theorem State.writeV_fpc (x : Nibble) (b : Byte) : (s.writeV x b).fpc = s.fpc := rfl
@[simp] theorem State.writeV_fword (x : Nibble) (b : Byte) : (s.writeV x b).fword = s.fword := rfl
@[simp] theorem State.writeV_finfo (x : Nibble) (b : Byte) : (s.writeV x b).finfo = s.finfo := rfl
@[simp] theorem State.writeV_draws (x : Nibble) (b : Byte) : (s.writeV x b).draws = s.draws := rfl

/-! ### writeFlagged -/

@[simp] theorem State.writeFlagged_mem (x : Nibble) (r : Byte) (g : Bool) : (s.writeFlagged x r g).mem = s.mem := rfl
@[simp] theorem State.writeFlagged_v (x : Nibble) (r : Byte) (g : Bool) : (s.writeFlagged x r g).v = (s.v.set x.toNat r x.isLt).set 15 (flagByte g) := rfl
@[simp] theorem State.writeFlagged_i (x : Nibble) (r : Byte) (g : Bool) : (s.writeFlagged x r g).i = s.i := rfl
@[simp] theorem State.writeFlagged_pc (x : Nibble) (r : Byte) (g : Bool) : (s.writeFlagged x r g).pc = s.pc := rfl
@[simp] theorem State.writeFlagged_sp (x : Nibble) (r : Byte) (g : Bool) : (s.writeFlagged x r g).sp = s.sp := rfl
@[simp] theorem State.writeFlagged_stack (x : Nibble) (r : Byte) (g : Bool) : (s.writeFlagged x r g).stack = s.stack := rfl
@[simp] theorem State.writeFlagged_dt (x : Nibble) (r : Byte) (g : Bool) : (s.writeFlagged x r g).dt = s.dt := rfl
@[simp] theorem State.writeFlagged_st (x : Nibble) (r : Byte) (g : Bool) : (s.writeFlagged x r g).st = s.st := rfl
@[simp] theorem State.writeFlagged_keys (x : Nibble) (r : Byte) (g : Bool) : (s.writeFlagged x r g).keys = s.keys := rfl
@[simp] theorem State.writeFlagged_fb (x : Nibble) (r : Byte) (g : Bool) : (s.writeFlagged x r g).fb = s.fb := rfl
@[simp] theorem State.writeFlagged_fault (x : Nibble) (r : Byte) (g : Bool) : (s.writeFlagged x r g).fault = s.fault := rfl
@[simp] theorem State.writeFlagged_fcause (x : Nibble) (r : Byte) (g : Bool) : (s.writeFlagged x r g).fcause = s.fcause := rfl
@[simp] theorem State.writeFlagged_fpc (x : Nibble) (r : Byte) (g : Bool) : (s.writeFlagged x r g).fpc = s.fpc := rfl
@[simp] theorem State.writeFlagged_fword (x : Nibble) (r : Byte) (g : Bool) : (s.writeFlagged x r g).fword = s.fword := rfl
@[simp] theorem State.writeFlagged_finfo (x : Nibble) (r : Byte) (g : Bool) : (s.writeFlagged x r g).finfo = s.finfo := rfl
@[simp] theorem State.writeFlagged_draws (x : Nibble) (r : Byte) (g : Bool) : (s.writeFlagged x r g).draws = s.draws := rfl

/-! ### skip -/

@[simp] theorem State.skip_mem : (s.skip).mem = s.mem := rfl
@[simp] theorem State.skip_v : (s.skip).v = s.v := rfl
@[simp] theorem State.skip_i : (s.skip).i = s.i := rfl
@[simp] theorem State.skip_pc : (s.skip).pc = s.pc + 2 := rfl
@[simp] theorem State.skip_sp : (s.skip).sp = s.sp := rfl
@[simp] theorem State.skip_stack : (s.skip).stack = s.stack := rfl
@[simp] theorem State.skip_dt : (s.skip).dt = s.dt := rfl
@[simp] theorem State.skip_st : (s.skip).st = s.st := rfl
@[simp] theorem State.skip_keys : (s.skip).keys = s.keys := rfl
@[simp] theorem State.skip_fb : (s.skip).fb = s.fb := rfl
@[simp] theorem State.skip_fault : (s.skip).fault = s.fault := rfl
@[simp] theorem State.skip_fcause : (s.skip).fcause = s.fcause := rfl
@[simp] theorem State.skip_fpc : (s.skip).fpc = s.fpc := rfl
@[simp] theorem State.skip_fword : (s.skip).fword = s.fword := rfl
@[simp] theorem State.skip_finfo : (s.skip).finfo = s.finfo := rfl
@[simp] theorem State.skip_draws : (s.skip).draws = s.draws := rfl

/-! ### rewind -/

@[simp] theorem State.rewind_mem : (s.rewind).mem = s.mem := rfl
@[simp] theorem State.rewind_v : (s.rewind).v = s.v := rfl
@[simp] theorem State.rewind_i : (s.rewind).i = s.i := rfl
@[simp] theorem State.rewind_pc : (s.rewind).pc = s.pc - 2 := rfl
@[simp] theorem State.rewind_sp : (s.rewind).sp = s.sp := rfl
@[simp] theorem State.rewind_stack : (s.rewind).stack = s.stack := rfl
@[simp] theorem State.rewind_dt : (s.rewind).dt = s.dt := rfl
@[simp] theorem State.rewind_st : (s.rewind).st = s.st := rfl
@[simp] theorem State.rewind_keys : (s.rewind).keys = s.keys := rfl
@[simp] theorem State.rewind_fb : (s.rewind).fb = s.fb := rfl
@[simp] theorem State.rewind_fault : (s.rewind).fault = s.fault := rfl
@[simp] theorem State.rewind_fcause : (s.rewind).fcause = s.fcause := rfl
@[simp] theorem State.rewind_fpc : (s.rewind).fpc = s.fpc := rfl
@[simp] theorem State.rewind_fword : (s.rewind).fword = s.fword := rfl
@[simp] theorem State.rewind_finfo : (s.rewind).finfo = s.finfo := rfl
@[simp] theorem State.rewind_draws : (s.rewind).draws = s.draws := rfl

/-! ### advance -/

@[simp] theorem State.advance_mem : (s.advance).mem = s.mem := rfl
@[simp] theorem State.advance_v : (s.advance).v = s.v := rfl
@[simp] theorem State.advance_i : (s.advance).i = s.i := rfl
@[simp] theorem State.advance_pc : (s.advance).pc = s.pc + 2 := rfl
@[simp] theorem State.advance_sp : (s.advance).sp = s.sp := rfl
@[simp] theorem State.advance_stack : (s.advance).stack = s.stack := rfl
@[simp] theorem State.advance_dt : (s.advance).dt = s.dt := rfl
@[simp] theorem State.advance_st : (s.advance).st = s.st := rfl
@[simp] theorem State.advance_keys : (s.advance).keys = s.keys := rfl
@[simp] theorem State.advance_fb : (s.advance).fb = s.fb := rfl
@[simp] theorem State.advance_fault : (s.advance).fault = s.fault := rfl
@[simp] theorem State.advance_fcause : (s.advance).fcause = s.fcause := rfl
@[simp] theorem State.advance_fpc : (s.advance).fpc = s.fpc := rfl
@[simp] theorem State.advance_fword : (s.advance).fword = s.fword := rfl
@[simp] theorem State.advance_finfo : (s.advance).finfo = s.finfo := rfl
@[simp] theorem State.advance_draws : (s.advance).draws = s.draws := rfl

/-! ### tick -/

@[simp] theorem State.tick_mem : (s.tick).mem = s.mem := rfl
@[simp] theorem State.tick_v : (s.tick).v = s.v := rfl
@[simp] theorem State.tick_i : (s.tick).i = s.i := rfl
@[simp] theorem State.tick_pc : (s.tick).pc = s.pc := rfl
@[simp] theorem State.tick_sp : (s.tick).sp = s.sp := rfl
@[simp] theorem State.tick_stack : (s.tick).stack = s.stack := rfl
@[simp] theorem State.tick_dt : (s.tick).dt = countDown s.dt := rfl
@[simp] theorem State.tick_st : (s.tick).st = countDown s.st := rfl
@[simp] theorem State.tick_keys : (s.tick).keys = s.keys := rfl
@[simp] theorem State.tick_fb : (s.tick).fb = s.fb := rfl
@[simp] theorem State.tick_fault : (s.tick).fault = s.fault := rfl
@[simp] theorem State.tick_fcause : (s.tick).fcause = s.fcause := rfl
@[simp] theorem State.tick_fpc : (s.tick).fpc = s.fpc := rfl
@[simp] theorem State.tick_fword : (s.tick).fword = s.fword := rfl
@[simp] theorem State.tick_finfo : (s.tick).finfo = s.finfo := rfl
@[simp] theorem State.tick_draws : (s.tick).draws = s.draws := rfl

end Sys2Proof.Machine
end

