-- ==== Sys2Proof/Laws/Memory.lean ====
section
/-! SUPPORT. Memory as data: a read after a write, and that every memory operation keeps the canonical form. -/

namespace Sys2Proof.Machine

theorem Memory.listed_put (m : Memory) (a : Nat) (b : Byte) (a' : Nat) :
    Memory.listed (Memory.put m a b) a' = if a = a' then some b else Memory.listed m a' := by
  induction m with
  | nil => rfl
  | cons e m ih =>
    obtain ⟨k, v⟩ := e
    by_cases h1 : a < k
    · simp [Memory.put, Memory.listed, h1]
    · by_cases h2 : a = k
      · subst h2; by_cases h3 : a = a' <;> simp [Memory.put, Memory.listed, h3]
      · simp only [Memory.put, if_neg h1, if_neg h2, Memory.listed, ih]
        by_cases h3 : a = a'
        · subst h3
          simp [Ne.symm h2]
        · simp [h3]

theorem Memory.listed_drop (m : Memory) (a a' : Nat) :
    Memory.listed (Memory.drop m a) a' = if a = a' then none else Memory.listed m a' := by
  induction m with
  | nil => simp [Memory.drop, Memory.listed]
  | cons e m ih =>
    obtain ⟨k, v⟩ := e
    unfold Memory.drop at ih ⊢
    by_cases h2 : k = a
    · subst h2; by_cases h3 : k = a' <;> simp_all [Memory.listed]
    · by_cases h3 : a = a' <;> by_cases h4 : k = a' <;> simp_all [Memory.listed]

/-- A read gives the byte last written to its address, and a write leaves every other address alone. -/
theorem Memory.read_write (c : Config) (m : Memory) (a : Nat) (b : Byte) (a' : Nat) :
    Memory.read c (Memory.write c m a b) a' = if a = a' then b else Memory.read c m a' := by
  unfold Memory.read Memory.write
  by_cases hb : b = resetByte c a
  · rw [if_pos hb, Memory.listed_drop]
    by_cases h : a = a'
    · subst h; simp [hb]
    · simp [h]
  · rw [if_neg hb, Memory.listed_put]
    by_cases h : a = a' <;> simp [h]

@[simp] theorem Memory.read_write_self (c : Config) (m : Memory) (a : Nat) (b : Byte) :
    Memory.read c (Memory.write c m a b) a = b := by simp [Memory.read_write]

theorem Memory.read_write_ne (c : Config) (m : Memory) {a a' : Nat} (b : Byte) (h : a ≠ a') :
    Memory.read c (Memory.write c m a b) a' = Memory.read c m a' := by simp [Memory.read_write, h]

/-- Memory with nothing listed reads as the reset contents (20_memory.md R57). -/
@[simp] theorem Memory.read_nil (c : Config) (a : Nat) : Memory.read c [] a = resetByte c a := rfl

theorem Memory.mem_put {m : Memory} {a : Nat} {b : Byte} {e : Host.Cell} (h : e ∈ Memory.put m a b) :
    e = (a, b) ∨ e ∈ m := by
  induction m with
  | nil => simpa [Memory.put] using h
  | cons f m ih =>
    obtain ⟨k, v⟩ := f
    unfold Memory.put at h
    split at h
    · simpa using h
    · split at h
      · simp only [List.mem_cons] at h ⊢; tauto
      · simp only [List.mem_cons] at h ⊢
        rcases h with h | h
        · exact Or.inr (Or.inl h)
        · rcases ih h with h | h
          · exact Or.inl h
          · exact Or.inr (Or.inr h)

theorem Memory.put_sorted {m : Memory} (a : Nat) (b : Byte) (h : m.Pairwise (fun e f => e.1 < f.1)) :
    (Memory.put m a b).Pairwise (fun e f => e.1 < f.1) := by
  induction m with
  | nil => simp [Memory.put]
  | cons f m ih =>
    obtain ⟨k, v⟩ := f
    obtain ⟨hk, hm⟩ := List.pairwise_cons.mp h
    unfold Memory.put
    split
    · rename_i h1
      refine List.pairwise_cons.mpr ⟨fun e he => ?_, h⟩
      rcases List.mem_cons.mp he with rfl | he
      · exact h1
      · exact lt_trans h1 (hk e he)
    · split
      · rename_i h2
        subst h2
        exact List.pairwise_cons.mpr ⟨hk, hm⟩
      · rename_i h1 h2
        refine List.pairwise_cons.mpr ⟨fun e he => ?_, ih hm⟩
        rcases Memory.mem_put he with rfl | he
        · show k < a
          omega
        · exact hk e he

/-- A write inside memory keeps the canonical form. -/
theorem Memory.wf_write (c : Config) {m : Memory} {a : Nat} (b : Byte) (ha : a < memSize) (h : Memory.Wf c m) :
    Memory.Wf c (Memory.write c m a b) := by
  unfold Memory.write
  split
  · exact ⟨h.1.sublist List.filter_sublist, fun e he => h.2 e (List.mem_filter.mp he).1⟩
  · rename_i hb
    refine ⟨Memory.put_sorted a b h.1, fun e he => ?_⟩
    rcases Memory.mem_put he with rfl | he
    · exact ⟨ha, hb⟩
    · exact h.2 e he

theorem Memory.listed_eq_some {m : Memory} (h : m.Pairwise (fun e f => e.1 < f.1)) (a : Nat) (b : Byte) :
    Memory.listed m a = some b ↔ (a, b) ∈ m := by
  induction m with
  | nil => simp [Memory.listed]
  | cons e m ih =>
    obtain ⟨k, v⟩ := e
    obtain ⟨hk, hm⟩ := List.pairwise_cons.mp h
    by_cases hka : k = a
    · subst hka
      have : (k, b) ∉ m := fun hmem => absurd (hk (k, b) hmem) (lt_irrefl k)
      simp [Memory.listed, this, eq_comm]
    · simp [Memory.listed, hka, Ne.symm hka, ih hm]

/-- Two memories in canonical form that read alike at every address are equal: equal memories are equal data. -/
theorem Memory.ext_read (c : Config) {m m' : Memory} (h : Memory.Wf c m) (h' : Memory.Wf c m')
    (heq : ∀ a, Memory.read c m a = Memory.read c m' a) : m = m' := by
  have hsub : ∀ {m m' : Memory}, Memory.Wf c m → Memory.Wf c m' →
      (∀ a, Memory.read c m a = Memory.read c m' a) → ∀ e ∈ m, e ∈ m' := by
    rintro m m' h h' heq ⟨a, b⟩ he
    have hb := (h.2 _ he).2
    have hr := heq a
    rw [Memory.read, (Memory.listed_eq_some h.1 a b).mpr he] at hr
    unfold Memory.read at hr
    cases hl : Memory.listed m' a with
    | none => rw [hl] at hr; exact absurd hr hb
    | some b' =>
      rw [hl] at hr
      simp only [Option.getD_some] at hr
      exact (Memory.listed_eq_some h'.1 a b).mp (hr ▸ hl)
  have hnd : ∀ {m : Memory}, Memory.Wf c m → m.Nodup := fun hw =>
    hw.1.imp (fun hlt he => by subst he; exact lt_irrefl _ hlt)
  refine List.Perm.eq_of_pairwise (le := fun e f => e.1 < f.1) ?_ h.1 h'.1 ?_
  · intro e f _ _ h1 h2; exact absurd (lt_trans h1 h2) (lt_irrefl _)
  · exact (List.perm_ext_iff_of_nodup (hnd h) (hnd h')).mpr fun e =>
      ⟨hsub h h' heq e, hsub h' h (fun a => (heq a).symm) e⟩

/-- Writing bytes one after the other inside memory keeps the canonical form. -/
theorem Memory.wf_writeBytes (c : Config) (bs : List Byte) {m : Memory} {a : Nat} (ha : a + bs.length ≤ memSize)
    (h : Memory.Wf c m) : Memory.Wf c (Memory.writeBytes c m a bs) := by
  induction bs generalizing m a with
  | nil => exact h
  | cons b bs ih =>
    simp only [List.length_cons] at ha
    exact ih (by omega) (Memory.wf_write c b (by omega) h)

/-- What memory reads after bytes are written one after the other. -/
theorem Memory.read_writeBytes (c : Config) (bs : List Byte) (m : Memory) (a a' : Nat) :
    Memory.read c (Memory.writeBytes c m a bs) a' =
      if a ≤ a' then (bs[a' - a]?).getD (Memory.read c m a') else Memory.read c m a' := by
  induction bs generalizing m a with
  | nil => simp [Memory.writeBytes]
  | cons b bs ih =>
    unfold Memory.writeBytes
    rw [ih, Memory.read_write]
    by_cases h1 : a = a'
    · subst h1; simp
    · by_cases h2 : a ≤ a'
      · have h3 : a + 1 ≤ a' := by omega
        have h4 : a' - a = (a' - (a + 1)) + 1 := by omega
        simp [h1, h2, h3, h4]
      · have h3 : ¬ a + 1 ≤ a' := by omega
        simp [h1, h2, h3]

end Sys2Proof.Machine
end

