-- ==== Sys2Proof/Laws/Access.lean ====
section
/-! SUPPORT. What memory accesses through `Addr` can do: one lemma per shared operation, and the policies apart. -/

namespace Sys2Proof.Machine

theorem addr_wrap {c : Config} (h : c.oob = .wrap) (a : Nat) : addr c a = .ok (a % memSize) := by simp [addr, h]

@[simp] theorem addr_defaults (a : Nat) : addr defaults a = .ok (a % memSize) := rfl

theorem addr_fault {c : Config} (h : c.oob = .fault) (a : Nat) :
    addr c a = if a < memSize then .ok a else .error { cause := .addrRange, info := BitVec.ofNat 16 a } := by
  simp [addr, h]

/-- Whatever the policy, an address that is given is inside memory. -/
theorem addr_lt {c : Config} {a p : Nat} (h : addr c a = .ok p) : p < memSize := by
  unfold addr at h
  split at h
  · cases h; exact Nat.mod_lt _ (by decide)
  · split at h
    · cases h; assumption
    · cases h

/-- Whatever the policy, a refused address is ADDR_RANGE with that address, at or above 4096. -/
theorem addr_error {c : Config} {a : Nat} {e : Trap} (h : addr c a = .error e) :
    c.oob = .fault ∧ memSize ≤ a ∧ e = { cause := .addrRange, info := BitVec.ofNat 16 a } := by
  unfold addr at h
  split at h
  · cases h
  · split at h
    · cases h
    · cases h; rename_i h1 h2; exact ⟨h1, by omega, rfl⟩

@[simp] theorem memRead_defaults (m : Memory) (a : Nat) :
    memRead defaults m a = .ok (Memory.read defaults m (a % memSize)) := rfl

@[simp] theorem memWrite_defaults (m : Memory) (a : Nat) (b : Byte) :
    memWrite defaults m a b = .ok (Memory.write defaults m (a % memSize) b) := rfl

/-- What a read run gives when it completes: each byte from its own address. -/
theorem memReadRun_ok {c : Config} {m : Memory} {a len : Nat} {bs : List Byte}
    (h : memReadRun c m a len = .ok bs) :
    bs.length = len ∧ ∀ k (hk : k < bs.length), memRead c m (a + k) = .ok bs[k] := by
  induction len generalizing a bs with
  | zero => cases h; simp
  | succ len ih =>
    unfold memReadRun at h
    split at h
    · cases h
    · rename_i b hb
      split at h
      · cases h
      · rename_i bs' hbs
        cases h
        obtain ⟨hl, hr⟩ := ih hbs
        refine ⟨by simp [hl], fun k hk => ?_⟩
        cases k with
        | zero => simpa using hb
        | succ k =>
          have := hr k (by simpa using hk)
          rw [show a + (k + 1) = a + 1 + k by omega]
          simpa using this

/-- When a read run fails, an address of it was refused, and every lower one was given. -/
theorem memReadRun_error {c : Config} {m : Memory} {a len : Nat} {e : Trap}
    (h : memReadRun c m a len = .error e) :
    ∃ k, k < len ∧ addr c (a + k) = .error e ∧ ∀ j, j < k → ∃ p, addr c (a + j) = .ok p := by
  induction len generalizing a with
  | zero => cases h
  | succ len ih =>
    unfold memReadRun at h
    split at h
    · rename_i e' he
      cases h
      refine ⟨0, by omega, ?_, fun j hj => absurd hj (by omega)⟩
      unfold memRead at he
      split at he
      · cases he
      · cases he; simpa
    · rename_i b hb
      split at h
      · rename_i e' he
        cases h
        obtain ⟨k, hk, hek, hj⟩ := ih he
        refine ⟨k + 1, by omega, by rw [show a + (k + 1) = a + 1 + k by omega]; exact hek, fun j hjk => ?_⟩
        cases j with
        | zero =>
          unfold memRead at hb
          split at hb
          · exact ⟨_, by simpa⟩
          · cases hb
        | succ j => rw [show a + (j + 1) = a + 1 + j by omega]; exact hj j (by omega)
      · cases h

/-- Under the policy wrap a read run always completes. -/
theorem memReadRun_wrap {c : Config} (hc : c.oob = .wrap) (m : Memory) (a len : Nat) :
    memReadRun c m a len = .ok ((List.range len).map fun k => Memory.read c m ((a + k) % memSize)) := by
  induction len generalizing a with
  | zero => rfl
  | succ len ih =>
    simp only [memReadRun, memRead, addr_wrap hc, ih, List.range_succ_eq_map, List.map_cons, List.map_map]
    simp only [Nat.add_zero, Function.comp_def, Except.ok.injEq, List.cons.injEq, true_and]
    refine List.map_congr_left fun k _ => ?_
    rw [show a + 1 + k = a + (k + 1) by omega]

/-- Under the policy wrap a write run always completes. -/
theorem memWriteRun_wrap {c : Config} (hc : c.oob = .wrap) (m : Memory) (a : Nat) (bs : List Byte) :
    ∃ m', memWriteRun c m a bs = .ok m' := by
  induction bs generalizing m a with
  | nil => exact ⟨m, rfl⟩
  | cons b bs ih => simpa only [memWriteRun, memWrite, addr_wrap hc] using ih _ _

/-- A write run leaves every address alone that is none of the addresses it stores to. -/
theorem memWriteRun_frame {c : Config} {m m' : Memory} {a : Nat} {bs : List Byte}
    (h : memWriteRun c m a bs = .ok m') (p : Nat) (hp : ∀ k, k < bs.length → addr c (a + k) ≠ .ok p) :
    Memory.read c m' p = Memory.read c m p := by
  induction bs generalizing m a with
  | nil => cases h; rfl
  | cons b bs ih =>
    unfold memWriteRun at h
    split at h
    · cases h
    · rename_i m1 hw
      have hrest : ∀ k, k < bs.length → addr c (a + 1 + k) ≠ .ok p := fun k hk => by
        have := hp (k + 1) (by simp; omega)
        rwa [show a + (k + 1) = a + 1 + k by omega] at this
      rw [ih h hrest]
      have h0 := hp 0 (by simp)
      unfold memWrite at hw
      split at hw
      · rename_i q hq
        cases hw
        refine Memory.read_write_ne c m b fun heq => h0 ?_
        simpa [heq] using hq
      · cases hw

/-- A write run of at most 4096 bytes leaves each byte at its own address. -/
theorem memWriteRun_stored {c : Config} {m m' : Memory} {a : Nat} {bs : List Byte}
    (h : memWriteRun c m a bs = .ok m') (hlen : bs.length ≤ memSize) (k : Nat) (hk : k < bs.length) (p : Nat)
    (hp : addr c (a + k) = .ok p) : Memory.read c m' p = bs[k] := by
  induction bs generalizing m a k with
  | nil => simp at hk
  | cons b bs ih =>
    simp only [List.length_cons] at hlen hk
    unfold memWriteRun at h
    split at h
    · cases h
    · rename_i m1 hw
      cases k with
      | succ k =>
        rw [show a + (k + 1) = a + 1 + k by omega] at hp
        simpa using ih h (by omega) k (by omega) hp
      | zero =>
        simp only [Nat.add_zero] at hp
        rw [memWriteRun_frame h p]
        · rw [memWrite, hp] at hw
          cases hw
          simp
        · intro k hk' hcon
          unfold addr at hp hcon
          split at hp
          · rename_i hc
            rw [hc] at hcon
            simp only [Except.ok.injEq] at hp hcon
            unfold memSize at hp hcon hlen
            omega
          · rename_i hc
            rw [hc] at hcon
            split at hp
            · simp only at hcon
              split at hcon
              · simp only [Except.ok.injEq] at hp hcon; omega
              · cases hcon
            · cases hp

/-- A write run fails exactly at the first address that is refused. -/
theorem memWriteRun_error {c : Config} {m : Memory} {a : Nat} {bs : List Byte} {e : Trap}
    (h : memWriteRun c m a bs = .error e) :
    ∃ k, k < bs.length ∧ addr c (a + k) = .error e ∧ ∀ j, j < k → ∃ p, addr c (a + j) = .ok p := by
  induction bs generalizing m a with
  | nil => cases h
  | cons b bs ih =>
    unfold memWriteRun at h
    split at h
    · rename_i e' he
      cases h
      refine ⟨0, by simp, ?_, fun j hj => absurd hj (by omega)⟩
      unfold memWrite at he
      split at he
      · cases he
      · cases he; simpa
    · rename_i m1 hb
      obtain ⟨k, hk, hek, hj⟩ := ih h
      refine ⟨k + 1, by simp; omega, by rw [show a + (k + 1) = a + 1 + k by omega]; exact hek, fun j hjk => ?_⟩
      cases j with
      | zero =>
        unfold memWrite at hb
        split at hb
        · exact ⟨_, by simpa⟩
        · cases hb
      | succ j => rw [show a + (j + 1) = a + 1 + j by omega]; exact hj j (by omega)

/-- A write run keeps the canonical form. -/
theorem memWriteRun_wf {c : Config} {m m' : Memory} {a : Nat} {bs : List Byte}
    (h : memWriteRun c m a bs = .ok m') (hm : Memory.Wf c m) : Memory.Wf c m' := by
  induction bs generalizing m a with
  | nil => cases h; exact hm
  | cons b bs ih =>
    unfold memWriteRun at h
    split at h
    · cases h
    · rename_i m1 hw
      refine ih h ?_
      unfold memWrite at hw
      split at hw
      · rename_i p hp
        cases hw
        exact Memory.wf_write c b (addr_lt hp) hm
      · cases hw

end Sys2Proof.Machine
end

