-- ==== Sys2Proof/Laws/Decode.lean ====
section
/-! SUPPORT. The fields of a word laid out field by field, and a word as its fields: the two halves of every round trip
between `encode` and `decodeWord`. -/

namespace Sys2Proof

/-! ## Bits of a layout (30_encoding.md R72) -/

theorem bit_addr (f : Nibble) (a : Addr12) (i : Nat) :
    BitVec.getLsbD (w := 16) (f ++ a) i = if i < 12 then a.getLsbD i else f.getLsbD (i - 12) :=
  BitVec.getLsbD_append

theorem bit_xk (f x : Nibble) (kk : Byte) (i : Nat) :
    BitVec.getLsbD (w := 16) (f ++ x ++ kk) i =
      if i < 8 then kk.getLsbD i else if i < 12 then x.getLsbD (i - 8) else f.getLsbD (i - 12) := by
  refine BitVec.getLsbD_append.trans ?_
  split
  · rfl
  · refine BitVec.getLsbD_append.trans ?_
    simp only [show (i - 8 < 4) = (i < 12) by apply propext; omega, show i - 8 - 4 = i - 12 by omega]

theorem bit_xyn (f x y n : Nibble) (i : Nat) :
    BitVec.getLsbD (w := 16) (f ++ x ++ y ++ n) i =
      if i < 4 then n.getLsbD i else if i < 8 then y.getLsbD (i - 4)
      else if i < 12 then x.getLsbD (i - 8) else f.getLsbD (i - 12) := by
  refine BitVec.getLsbD_append.trans ?_
  split
  · rfl
  · refine BitVec.getLsbD_append.trans ?_
    simp only [show (i - 4 < 4) = (i < 8) by apply propext; omega]
    split
    · rfl
    · refine BitVec.getLsbD_append.trans ?_
      simp only [show i - 4 - 4 = i - 8 by omega, show (i - 8 < 4) = (i < 12) by apply propext; omega,
        show i - 8 - 4 = i - 12 by omega]

theorem bit_mid (f : Nibble) (m : Byte) (n : Nibble) (i : Nat) :
    BitVec.getLsbD (w := 16) (f ++ m ++ n) i =
      if i < 4 then n.getLsbD i else if i < 12 then m.getLsbD (i - 4) else f.getLsbD (i - 12) := by
  refine BitVec.getLsbD_append.trans ?_
  split
  · rfl
  · refine BitVec.getLsbD_append.trans ?_
    simp only [show (i - 4 < 8) = (i < 12) by apply propext; omega, show i - 4 - 8 = i - 12 by omega]

/-! ## Fields of a layout -/

section Fields
variable (f x y n : Nibble) (kk : Byte) (a : Addr12)

@[simp] theorem famOf_addr : famOf (f ++ a) = f := by
  refine BitVec.eq_of_getLsbD_eq fun i hi => ?_
  simp [famOf, bit_addr, hi]

@[simp] theorem nnnOf_addr : nnnOf (f ++ a) = a := by
  refine BitVec.eq_of_getLsbD_eq fun i hi => ?_
  simp [nnnOf, bit_addr, hi]

@[simp] theorem famOf_xk : famOf (f ++ x ++ kk) = f := by
  refine BitVec.eq_of_getLsbD_eq fun i hi => ?_
  simp [famOf, bit_xk, hi]
  omega

@[simp] theorem xOf_xk : xOf (f ++ x ++ kk) = x := by
  refine BitVec.eq_of_getLsbD_eq fun i hi => ?_
  simp [xOf, bit_xk, hi, show 8 + i < 12 by omega]

@[simp] theorem kkOf_xk : kkOf (f ++ x ++ kk) = kk := by
  refine BitVec.eq_of_getLsbD_eq fun i hi => ?_
  simp [kkOf, bit_xk, hi]

@[simp] theorem famOf_xyn : famOf (f ++ x ++ y ++ n) = f := by
  refine BitVec.eq_of_getLsbD_eq fun i hi => ?_
  simp [famOf, bit_xyn, hi, show ¬ 12 + i < 4 by omega, show ¬ 12 + i < 8 by omega]

@[simp] theorem xOf_xyn : xOf (f ++ x ++ y ++ n) = x := by
  refine BitVec.eq_of_getLsbD_eq fun i hi => ?_
  simp [xOf, bit_xyn, hi, show ¬ 8 + i < 4 by omega, show 8 + i < 12 by omega]

@[simp] theorem yOf_xyn : yOf (f ++ x ++ y ++ n) = y := by
  refine BitVec.eq_of_getLsbD_eq fun i hi => ?_
  simp [yOf, bit_xyn, hi, show 4 + i < 8 by omega]

@[simp] theorem nOf_xyn : nOf (f ++ x ++ y ++ n) = n := by
  refine BitVec.eq_of_getLsbD_eq fun i hi => ?_
  simp [nOf, bit_xyn, hi]

@[simp] theorem famOf_mid : famOf (f ++ kk ++ n) = f := by
  refine BitVec.eq_of_getLsbD_eq fun i hi => ?_
  simp [famOf, bit_mid, hi, show ¬ 12 + i < 4 by omega]

@[simp] theorem midOf_mid : midOf (f ++ kk ++ n) = kk := by
  refine BitVec.eq_of_getLsbD_eq fun i hi => ?_
  simp [midOf, bit_mid, hi, show 4 + i < 12 by omega]

@[simp] theorem nOf_mid : nOf (f ++ kk ++ n) = n := by
  refine BitVec.eq_of_getLsbD_eq fun i hi => ?_
  simp [nOf, bit_mid, hi]

end Fields

/-! ## A word is its fields (30_encoding.md R71) -/

theorem word_eq_addr (w : Word) : w = famOf w ++ nnnOf w := by
  refine BitVec.eq_of_getLsbD_eq fun i hi => ?_
  rw [bit_addr]
  split
  · simp [nnnOf, *]
  · simp [famOf, show i - 12 < 4 by omega, show 12 + (i - 12) = i by omega]

theorem word_eq_xk (w : Word) : w = famOf w ++ xOf w ++ kkOf w := by
  refine BitVec.eq_of_getLsbD_eq fun i hi => ?_
  rw [bit_xk]
  split
  · simp [kkOf, *]
  · split
    · simp [xOf, show i - 8 < 4 by omega, show 8 + (i - 8) = i by omega]
    · simp [famOf, show i - 12 < 4 by omega, show 12 + (i - 12) = i by omega]

theorem word_eq_xyn (w : Word) : w = famOf w ++ xOf w ++ yOf w ++ nOf w := by
  refine BitVec.eq_of_getLsbD_eq fun i hi => ?_
  rw [bit_xyn]
  split
  · simp [nOf, *]
  · split
    · simp [yOf, show i - 4 < 4 by omega, show 4 + (i - 4) = i by omega]
    · split
      · simp [xOf, show i - 8 < 4 by omega, show 8 + (i - 8) = i by omega]
      · simp [famOf, show i - 12 < 4 by omega, show 12 + (i - 12) = i by omega]

theorem word_eq_mid (w : Word) : w = famOf w ++ midOf w ++ nOf w := by
  refine BitVec.eq_of_getLsbD_eq fun i hi => ?_
  rw [bit_mid]
  split
  · simp [nOf, *]
  · split
    · simp [midOf, show i - 4 < 8 by omega, show 4 + (i - 4) = i by omega]
    · simp [famOf, show i - 12 < 4 by omega, show 12 + (i - 12) = i by omega]

/-! ## Bytes -/

/-- The high and low bytes of a word make it up again (20_memory.md R53). -/
@[simp] theorem wordOfBytes_bytes (w : Word) : wordOfBytes (w.extractLsb' 8 8) (w.extractLsb' 0 8) = w := by
  refine BitVec.eq_of_getLsbD_eq fun i hi => ?_
  refine BitVec.getLsbD_append.trans ?_
  split
  · simp [*]
  · simp [show i - 8 < 8 by omega, show 8 + (i - 8) = i by omega]

/-- Decoding a word as it lies in memory reads exactly that word and leaves the rest. -/
@[simp] theorem decode_bytesOfWord (w : Word) (rest : List Byte) :
    decode (bytesOfWord w ++ rest) = .ok (decodeWord w, rest) := by
  simp [bytesOfWord, decode]

end Sys2Proof
end

