-- ==== Sys2Proof/Laws/Framebuffer.lean ====
section
/-! SUPPORT. The framebuffer as data: what toggling does to each pixel, and that it keeps the canonical form. -/

namespace Sys2Proof.Machine

theorem pixelLt_trichotomy {p q : Pixel} (h : p ≠ q) (h1 : pixelLt p q = false) : pixelLt q p = true := by
  obtain ⟨a, b⟩ := p
  obtain ⟨a', b'⟩ := q
  simp only [ne_eq, Prod.mk.injEq, not_and] at h
  simp only [pixelLt, Bool.or_eq_false_iff, Bool.and_eq_false_iff, decide_eq_false_iff_not, Bool.or_eq_true,
    Bool.and_eq_true, decide_eq_true_eq, beq_iff_eq, beq_eq_false_iff_ne, ne_eq] at h1 ⊢
  by_cases hb : b = b'
  · subst hb
    have hne : ¬ a = a' := fun ha => h ha rfl
    omega
  · omega

theorem pixelLt_trans {p q r : Pixel} (h1 : pixelLt p q = true) (h2 : pixelLt q r = true) : pixelLt p r = true := by
  simp only [pixelLt, Bool.or_eq_true, Bool.and_eq_true, decide_eq_true_eq, beq_iff_eq] at h1 h2 ⊢
  omega

theorem pixelLt_irrefl (p : Pixel) : pixelLt p p = false := by simp [pixelLt]

@[simp] theorem Framebuffer.lit_nil (p : Pixel) : Framebuffer.lit [] p = false := by simp [Framebuffer.lit]

theorem Framebuffer.mem_light (fb : Framebuffer) (p q : Pixel) : q ∈ Framebuffer.light fb p ↔ q = p ∨ q ∈ fb := by
  induction fb with
  | nil => simp [Framebuffer.light]
  | cons r fb ih =>
    unfold Framebuffer.light
    split
    · simp
    · simp only [List.mem_cons, ih]; tauto

/-- Toggling a pixel inverts it and leaves every other pixel alone. -/
theorem Framebuffer.lit_toggle (fb : Framebuffer) (p q : Pixel) :
    Framebuffer.lit (Framebuffer.toggle fb p) q = (Framebuffer.lit fb q ^^ decide (q = p)) := by
  unfold Framebuffer.toggle
  by_cases hp : p ∈ fb
  · by_cases hq : q = p <;> simp_all [Framebuffer.lit]
  · by_cases hq : q = p <;> simp_all [Framebuffer.lit, Framebuffer.mem_light]

theorem Framebuffer.light_sorted {fb : Framebuffer} {p : Pixel} (hp : p ∉ fb)
    (h : fb.Pairwise (fun p q => pixelLt p q = true)) :
    (Framebuffer.light fb p).Pairwise (fun p q => pixelLt p q = true) := by
  induction fb with
  | nil => simp [Framebuffer.light]
  | cons r fb ih =>
    obtain ⟨hr, hfb⟩ := List.pairwise_cons.mp h
    have hpr : p ≠ r := fun he => hp (by simp [he])
    have hpf : p ∉ fb := fun he => hp (List.mem_cons_of_mem _ he)
    unfold Framebuffer.light
    split
    · rename_i hlt
      refine List.pairwise_cons.mpr ⟨fun q hq => ?_, h⟩
      rcases List.mem_cons.mp hq with rfl | hq
      · exact hlt
      · exact pixelLt_trans hlt (hr q hq)
    · rename_i hlt
      refine List.pairwise_cons.mpr ⟨fun q hq => ?_, ih hpf hfb⟩
      rcases (Framebuffer.mem_light fb p q).mp hq with rfl | hq
      · exact pixelLt_trichotomy hpr (by simpa using hlt)
      · exact hr q hq

/-- Toggling a pixel inside the framebuffer keeps the canonical form. -/
theorem Framebuffer.wf_toggle {c : Config} {fb : Framebuffer} {p : Pixel} (hp : p.1 < c.fbW ∧ p.2 < c.fbH)
    (h : Framebuffer.Wf c fb) : Framebuffer.Wf c (Framebuffer.toggle fb p) := by
  unfold Framebuffer.toggle
  split
  · exact ⟨h.1.sublist List.filter_sublist, fun q hq => h.2 q (List.mem_filter.mp hq).1⟩
  · rename_i hl
    refine ⟨Framebuffer.light_sorted (by simpa [Framebuffer.lit] using hl) h.1, fun q hq => ?_⟩
    rcases (Framebuffer.mem_light fb p q).mp hq with rfl | hq
    · exact hp
    · exact h.2 q hq

/-- Two framebuffers in canonical form with the same set pixels are equal: equal pictures are equal data. -/
theorem Framebuffer.ext_lit {c : Config} {fb fb' : Framebuffer} (h : Framebuffer.Wf c fb) (h' : Framebuffer.Wf c fb')
    (heq : ∀ p, Framebuffer.lit fb p = Framebuffer.lit fb' p) : fb = fb' := by
  have hnd : ∀ {fb : Framebuffer}, Framebuffer.Wf c fb → fb.Nodup := fun hw =>
    hw.1.imp (fun hlt he => by subst he; simp [pixelLt_irrefl] at hlt)
  refine List.Perm.eq_of_pairwise (le := fun p q => pixelLt p q = true) ?_ h.1 h'.1 ?_
  · intro p q _ _ h1 h2
    exact absurd (pixelLt_trans h1 h2) (by simp [pixelLt_irrefl])
  · refine (List.perm_ext_iff_of_nodup (hnd h) (hnd h')).mpr fun p => ?_
    have := heq p
    simpa [Framebuffer.lit] using this

/-- The drawing loop over distinct pixels: each listed pixel is inverted, every other is left alone, and the collision is
whether some listed pixel was set before. -/
theorem drawPixels_spec (ps : List Pixel) (hnd : ps.Nodup) (fb : Framebuffer) (col : Bool) :
    (∀ q, Framebuffer.lit (drawPixels fb col ps).1 q = (Framebuffer.lit fb q ^^ decide (q ∈ ps))) ∧
      (drawPixels fb col ps).2 = (col || ps.any (Framebuffer.lit fb)) := by
  induction ps generalizing fb col with
  | nil => simp [drawPixels]
  | cons p ps ih =>
    obtain ⟨hp, hps⟩ := List.nodup_cons.mp hnd
    obtain ⟨h1, h2⟩ := ih hps (Framebuffer.toggle fb p) (col || Framebuffer.lit fb p)
    unfold drawPixels
    refine ⟨fun q => ?_, ?_⟩
    · rw [h1 q, Framebuffer.lit_toggle]
      by_cases hq : q = p
      · subst hq; simp [hp]
      · simp [hq]
    · rw [h2, List.any_cons, Bool.or_assoc]
      congr 2
      have : ∀ q ∈ ps, Framebuffer.lit (Framebuffer.toggle fb p) q = Framebuffer.lit fb q := fun q hq => by
        have hne : q ≠ p := fun he => hp (he ▸ hq)
        simp [Framebuffer.lit_toggle, hne]
      rw [Bool.eq_iff_iff, List.any_eq_true, List.any_eq_true]
      exact ⟨fun ⟨q, hq, hl⟩ => ⟨q, hq, this q hq ▸ hl⟩, fun ⟨q, hq, hl⟩ => ⟨q, hq, (this q hq).symm ▸ hl⟩⟩

/-- The drawing loop over pixels inside the framebuffer keeps the canonical form. -/
theorem drawPixels_wf {c : Config} (ps : List Pixel) (hin : ∀ p ∈ ps, p.1 < c.fbW ∧ p.2 < c.fbH) {fb : Framebuffer}
    (col : Bool) (h : Framebuffer.Wf c fb) : Framebuffer.Wf c (drawPixels fb col ps).1 := by
  induction ps generalizing fb col with
  | nil => exact h
  | cons p ps ih =>
    exact ih (fun q hq => hin q (List.mem_cons_of_mem _ hq)) _ (Framebuffer.wf_toggle (hin p (by simp)) h)

/-- A pixel of a row: visible, and one of the row's eight columns with its bit set. -/
theorem mem_rowPixels {c : Config} {px Y : Nat} {b : Byte} {q : Pixel} :
    q ∈ rowPixels c px Y b ↔
      q.2 = Y ∧ q.1 < c.fbW ∧ q.2 < c.fbH ∧ px ≤ q.1 ∧ q.1 < px + 8 ∧ b.getLsbD (7 - (q.1 - px)) = true := by
  obtain ⟨X, Z⟩ := q
  unfold rowPixels
  simp only [List.mem_map, List.mem_filter, Bool.and_eq_true, decide_eq_true_eq, Prod.mk.injEq]
  constructor
  · rintro ⟨col, ⟨hcol, ⟨hb, hx⟩, hy⟩, hX, hY⟩
    have hc : col < 8 := by
      simp only [spriteCols, List.mem_cons, List.not_mem_nil, or_false] at hcol; omega
    subst hX; subst hY
    refine ⟨rfl, hx, hy, by omega, by omega, ?_⟩
    rw [show px + col - px = col by omega]
    exact hb
  · rintro ⟨hY, hx, hy, h1, h2, hb⟩
    refine ⟨X - px, ⟨?_, ⟨hb, by omega⟩, by omega⟩, by omega, by omega⟩
    simp only [spriteCols, List.mem_cons, List.not_mem_nil, or_false]
    omega

/-- A pixel of a sprite: visible, in one of its rows and columns, with its bit set. -/
theorem mem_spritePixels {c : Config} {px Y : Nat} {bs : List Byte} {q : Pixel} :
    q ∈ spritePixels c px Y bs ↔
      q.1 < c.fbW ∧ q.2 < c.fbH ∧ px ≤ q.1 ∧ q.1 < px + 8 ∧ Y ≤ q.2 ∧
        ∃ b, bs[q.2 - Y]? = some b ∧ b.getLsbD (7 - (q.1 - px)) = true := by
  induction bs generalizing Y with
  | nil => simp [spritePixels]
  | cons b bs ih =>
    simp only [spritePixels, List.mem_append, mem_rowPixels, ih]
    constructor
    · rintro (⟨hY, hx, hy, h1, h2, hb⟩ | ⟨hx, hy, h1, h2, h3, b', hb', hbit⟩)
      · exact ⟨hx, hy, h1, h2, by omega, b, by simp [hY], hb⟩
      · refine ⟨hx, hy, h1, h2, by omega, b', ?_, hbit⟩
        rw [show q.2 - Y = (q.2 - (Y + 1)) + 1 by omega]
        simpa using hb'
    · rintro ⟨hx, hy, h1, h2, h3, b', hb', hbit⟩
      by_cases hq : q.2 = Y
      · refine Or.inl ⟨hq, hx, hy, h1, h2, ?_⟩
        rw [hq, Nat.sub_self] at hb'
        simp only [List.getElem?_cons_zero, Option.some.injEq] at hb'
        exact hb' ▸ hbit
      · refine Or.inr ⟨hx, hy, h1, h2, by omega, b', ?_, hbit⟩
        rw [show q.2 - Y = (q.2 - (Y + 1)) + 1 by omega] at hb'
        simpa using hb'

/-- The pixels of a sprite are distinct: each (X, Y) is touched at most once (45_display.md R200). -/
theorem spritePixels_nodup (c : Config) (px Y : Nat) (bs : List Byte) : (spritePixels c px Y bs).Nodup := by
  induction bs generalizing Y with
  | nil => simp [spritePixels]
  | cons b bs ih =>
    refine List.nodup_append.mpr ⟨?_, ih (Y + 1), fun p hp q hq heq => ?_⟩
    · refine List.Nodup.map (fun a a' h => ?_) (List.Nodup.filter _ (by decide))
      simp only [Prod.mk.injEq, and_true] at h
      omega
    · subst heq
      have h1 := (mem_rowPixels.mp hp).1
      have h2 := (mem_spritePixels.mp hq).2.2.2.2.1
      omega

end Sys2Proof.Machine
end

