-- ==== Sys2Proof/Laws/Regs.lean ====
section
/-! SUPPORT. Registers: a read after a write, the flag's priority, the register run, the key and stack operations. -/

namespace Sys2Proof.Machine

/-- A register read after a register write. -/
theorem State.readV_writeV (s : State) (x : Nibble) (b : Byte) (z : Nibble) :
    (s.writeV x b).readV z = if x = z then b else s.readV z := by
  unfold Block.readV
  simp only [State.writeV_v, Vector.getElem_set, BitVec.toNat_inj]

@[simp] theorem State.readV_writeV_self (s : State) (x : Nibble) (b : Byte) : (s.writeV x b).readV x = b := by
  simp [State.readV_writeV]

theorem State.readV_writeV_ne (s : State) {x z : Nibble} (b : Byte) (h : x ≠ z) :
    (s.writeV x b).readV z = s.readV z := by simp [State.readV_writeV, h]

/-- VF after a flagged write holds the flag, whatever the destination: the flag wins (42_alu.md R131). -/
@[simp] theorem State.readV_writeFlagged_flag (s : State) (x : Nibble) (r : Byte) (g : Bool) :
    (s.writeFlagged x r g).readV flagReg = flagByte g := by simp [State.writeFlagged]

/-- The destination of a flagged write holds the result, unless it is VF. -/
theorem State.readV_writeFlagged_dest (s : State) {x : Nibble} (r : Byte) (g : Bool) (h : x ≠ flagReg) :
    (s.writeFlagged x r g).readV x = r := by simp [State.writeFlagged, State.readV_writeV, h.symm]

/-- Every other register is left alone by a flagged write. -/
theorem State.readV_writeFlagged_ne (s : State) {x z : Nibble} (r : Byte) (g : Bool) (h : x ≠ z) (hf : flagReg ≠ z) :
    (s.writeFlagged x r g).readV z = s.readV z := by simp [State.writeFlagged, State.readV_writeV, h, hf]

/-- The registers decide the register file. -/
theorem State.regs_ext {s t : State} (h : ∀ z : Nibble, s.readV z = t.readV z) : s.v = t.v := by
  refine Vector.ext fun k hk => ?_
  have := h (BitVec.ofNat 4 k)
  simpa [Block.readV, Nat.mod_eq_of_lt hk] using this

/-- A run write changes the register file only. -/
theorem State.writeRun_sameButRegs (s : State) (k : Nat) (bs : List Byte) :
    s.writeRun k bs = s.setRegs (s.writeRun k bs).v := by
  induction bs generalizing s k with
  | nil => rfl
  | cons b bs ih => exact ih _ _

/-- What a register holds after a run of bytes is written from V[k] on. -/
theorem State.readV_writeRun (s : State) (k : Nat) (bs : List Byte) (hlen : k + bs.length ≤ 16) (z : Nibble) :
    (s.writeRun k bs).readV z = if k ≤ z.toNat then (bs[z.toNat - k]?).getD (s.readV z) else s.readV z := by
  induction bs generalizing s k with
  | nil => simp [State.writeRun]
  | cons b bs ih =>
    simp only [List.length_cons] at hlen
    have hz := z.isLt
    rw [State.writeRun, ih (s.writeV (BitVec.ofNat 4 k) b) (k + 1) (by omega), State.readV_writeV]
    have hk : (BitVec.ofNat 4 k = z) ↔ k = z.toNat := by
      rw [← BitVec.toNat_inj, BitVec.toNat_ofNat, Nat.mod_eq_of_lt (by omega)]
    by_cases h1 : k = z.toNat
    · rw [if_pos (hk.mpr h1), if_neg (by omega), if_pos (by omega), h1]
      simp
    · rw [if_neg (fun h => h1 (hk.mp h))]
      by_cases h2 : k ≤ z.toNat
      · rw [if_pos (by omega), if_pos h2, show z.toNat - k = (z.toNat - (k + 1)) + 1 by omega]
        simp
      · rw [if_neg (by omega), if_neg h2]

@[simp] theorem State.regRun_length (s : State) (x : Nibble) : (s.regRun x).length = x.toNat + 1 := by
  have := x.isLt
  simp only [State.regRun, List.length_take, Vector.length_toList]
  omega

/-- Byte k of the register run is V[k]. -/
theorem State.regRun_getElem (s : State) (x : Nibble) (k : Nat) (hk : k < (s.regRun x).length) :
    (s.regRun x)[k] = s.readV (BitVec.ofNat 4 k) := by
  have hx := x.isLt
  have hk' : k < 16 := by rw [State.regRun_length] at hk; omega
  simp [State.regRun, Block.readV, Nat.mod_eq_of_lt hk']

/-- Under the policy wrap every byte names a key slot: its value modulo 16. -/
theorem keyIdx_wrap {c : Config} (h : c.oob = .wrap) (b : Byte) :
    keyIdx c b = .ok ⟨b.toNat % 16, Nat.mod_lt _ (by decide)⟩ := by simp [keyIdx, h]

@[simp] theorem keyIdx_defaults (b : Byte) :
    keyIdx defaults b = .ok ⟨b.toNat % 16, Nat.mod_lt _ (by decide)⟩ := rfl

/-- A refused key number is KEY_RANGE with that number, at or above 16. -/
theorem keyIdx_error {c : Config} {b : Byte} {e : Trap} (h : keyIdx c b = .error e) :
    c.oob = .fault ∧ 16 ≤ b.toNat ∧ e = { cause := .keyRange, info := zextByte b } := by
  unfold keyIdx at h
  split at h
  · cases h
  · split at h
    · cases h
    · cases h; rename_i h1 h2; exact ⟨h1, by omega, rfl⟩

/-- `firstKey` finds the lowest pressed slot. -/
theorem State.firstKey_some {s : State} {k : Fin 16} (h : s.firstKey = some k) :
    s.keyDown k = true ∧ ∀ j, j < k → s.keyDown j = false := by
  rw [State.firstKey, List.find?_eq_some_iff_getElem] at h
  obtain ⟨hk, i, hi, hik, hall⟩ := h
  refine ⟨hk, fun j hj => ?_⟩
  simp only [List.getElem_finRange] at hik hall
  have hlen : i < 16 := by simpa using hi
  have := hall j.val (by have := congrArg Fin.val hik; simp at this; omega)
  simpa using this

/-- `firstKey` finds nothing exactly when no slot is pressed. -/
theorem State.firstKey_none (s : State) : s.firstKey = none ↔ ∀ k, s.keyDown k = false := by
  simp [State.firstKey, List.find?_eq_none]

/-- What a push does when it completes. -/
theorem State.push_ok {s t : State} {w : Word} (h : s.push w = .ok t) :
    ∃ hs : s.sp.val < 16, t = s.setStack (s.stack.set s.sp.val w hs) ⟨s.sp.val + 1, Nat.succ_lt_succ hs⟩ := by
  unfold State.push at h
  split at h
  · rename_i hs; cases h; exact ⟨hs, rfl⟩
  · cases h

/-- A push fails only on a full stack. -/
theorem State.push_error {s : State} {w : Word} {e : Trap} (h : s.push w = .error e) :
    s.sp = 16 ∧ e = { cause := .stackOverflow, info := 16 } := by
  unfold State.push at h
  split at h
  · cases h
  · rename_i hs
    cases h
    exact ⟨Fin.ext (by have := s.sp.isLt; show s.sp.val = 16; omega), rfl⟩

/-- What a pop does when it completes. -/
theorem State.pop_ok {s : State} {r : Word × State} (h : s.pop = .ok r) :
    ∃ _ : s.sp.val ≠ 0, r.1 = s.stack[s.sp.val - 1]'(by have := s.sp.isLt; omega) ∧
      r.2 = s.setStack s.stack ⟨s.sp.val - 1, by have := s.sp.isLt; omega⟩ := by
  unfold State.pop at h
  split at h
  · cases h
  · rename_i hs; cases h; exact ⟨hs, rfl, rfl⟩

/-- A pop fails only on an empty stack. -/
theorem State.pop_error {s : State} {e : Trap} (h : s.pop = .error e) :
    s.sp = 0 ∧ e = { cause := .stackUnderflow, info := 0 } := by
  unfold State.pop at h
  split at h
  · rename_i hs; cases h; exact ⟨Fin.ext hs, rfl⟩
  · cases h

end Sys2Proof.Machine
end

