-- ==== Sys2Proof/Laws/Step.lean ====
section
/-! SUPPORT. What committing, fetching and one Cycle can do, each said once. -/

namespace Sys2Proof.Machine

/-- Committing answers a next state: the new state, or the state before the step with the fault latched. -/
theorem commit_cases (i : Instr) (s : State) (r : Except Trap State) :
    (∃ t, r = .ok t ∧ commit i s r = .next t) ∨
      (∃ e, r = .error e ∧ commit i s r = .next (s.takeFault (s.pc - 2) (encode i) e)) := by
  cases r with
  | ok t => exact Or.inl ⟨t, rfl, rfl⟩
  | error e => exact Or.inr ⟨e, rfl, rfl⟩

@[simp] theorem commit_ok (i : Instr) (s t : State) : commit i s (.ok t) = .next t := rfl

@[simp] theorem commit_error (i : Instr) (s : State) (e : Trap) :
    commit i s (.error e) = .next (s.takeFault (s.pc - 2) (encode i) e) := rfl

/-- The fetch at the default parameters always completes: the bytes at PC and PC + 1 modulo 4096, big-endian. -/
@[simp] theorem fetch_defaults (s : State) :
    fetch defaults s = .ok (wordOfBytes (s.byteAt defaults (s.pc.toNat % memSize))
      (s.byteAt defaults ((s.pc.toNat + 1) % memSize))) := rfl

/-- A fetch depends on memory and PC alone. -/
theorem fetch_congr (c : Config) {s t : State} (hm : s.mem = t.mem) (hp : s.pc = t.pc) : fetch c s = fetch c t := by
  simp [fetch, hm, hp]

/-- What a fetched word is: the bytes at `Addr(PC)` and `Addr(PC + 1)`. -/
theorem fetch_ok {c : Config} {s : State} {w : Word} (h : fetch c s = .ok w) :
    ∃ a b, addr c s.pc.toNat = .ok a ∧ addr c (s.pc.toNat + 1) = .ok b ∧ w = wordOfBytes (s.byteAt c a) (s.byteAt c b) := by
  unfold fetch memRead at h
  cases ha : addr c s.pc.toNat with
  | error e => simp [ha] at h
  | ok a =>
    cases hb : addr c (s.pc.toNat + 1) with
    | error e => simp [ha, hb] at h
    | ok b =>
      simp only [ha, hb, Except.ok.injEq] at h
      exact ⟨a, b, rfl, rfl, h.symm⟩

/-- A failed fetch names the first address out of range: PC, else PC + 1. -/
theorem fetch_error {c : Config} {s : State} {e : Trap} (h : fetch c s = .error e) :
    addr c s.pc.toNat = .error e ∨
      (∃ a, addr c s.pc.toNat = .ok a) ∧ addr c (s.pc.toNat + 1) = .error e := by
  unfold fetch memRead at h
  cases ha : addr c s.pc.toNat with
  | error e' => simp only [ha, Except.error.injEq] at h; exact Or.inl (h ▸ rfl)
  | ok a =>
    cases hb : addr c (s.pc.toNat + 1) with
    | error e' => simp only [ha, hb, Except.error.injEq] at h; exact Or.inr ⟨⟨a, rfl⟩, h ▸ rfl⟩
    | ok b => simp [ha, hb] at h

/-- Everything one Cycle can do: stay put when faulted, latch a fetch fault, or end as its execute phase ends, with the
timer phase after a completed handler. -/
theorem cycle_next {c : Config} {run : Instr → State → Host.Outcome State Fault Refusal} {s t : State}
    (h : cycle c run s = .next t) :
    (s.fault = true ∧ t = s) ∨
    (s.fault = false ∧ ∃ e, fetch c s = .error e ∧ t = s.takeFault s.pc 0 e) ∨
    (s.fault = false ∧ ∃ w u, fetch c s = .ok w ∧ run (decodeWord w) s.advance = .next u ∧ t = u.finish) := by
  unfold cycle at h
  cases hf : s.fault with
  | true =>
    simp only [hf, if_true, Host.Outcome.next.injEq] at h
    exact Or.inl ⟨rfl, h.symm⟩
  | false =>
    simp only [hf, Bool.false_eq_true, if_false] at h
    cases hw : fetch c s with
    | error e =>
      simp only [hw, Host.Outcome.next.injEq] at h
      exact Or.inr (Or.inl ⟨rfl, e, rfl, h.symm⟩)
    | ok w =>
      simp only [hw] at h
      cases hr : run (decodeWord w) s.advance with
      | next u =>
        simp only [hr, Host.Outcome.next.injEq] at h
        exact Or.inr (Or.inr ⟨rfl, w, u, rfl, hr, h.symm⟩)
      | fault r => cases r
      | refused r => simp [hr] at h

/-- A Cycle whose fetch completes is its execute phase on the decoded word. -/
theorem cycle_fetched {c : Config} {run : Instr → State → Host.Outcome State Fault Refusal} {s : State} {w : Word}
    (hf : s.fault = false) (hw : fetch c s = .ok w) {u : State} (hr : run (decodeWord w) s.advance = .next u) :
    cycle c run s = .next u.finish := by
  simp [cycle, hf, hw, hr]

/-- A faulted block is stuck (60_exceptions.md R229). -/
theorem cycle_faulted {c : Config} {run : Instr → State → Host.Outcome State Fault Refusal} {s : State}
    (hf : s.fault = true) : cycle c run s = .next s := by
  simp [cycle, hf]

theorem State.finish_of_ok {s : State} (h : s.fault = false) : s.finish = s.tick := by simp [State.finish, h]

theorem State.finish_of_fault {s : State} (h : s.fault = true) : s.finish = s := by simp [State.finish, h]

@[simp] theorem State.finish_fault (s : State) : s.finish.fault = s.fault := by
  unfold State.finish; split <;> simp

/-- The machine of `step` is the parametric one at the default parameters, with the next free draw as its RND input. -/
theorem exec_eq_execWith (i : Instr) (s : State) : exec i s = execWith defaults (Config.randomByte s.draws) i s := by
  cases i <;> rfl

end Sys2Proof.Machine
end

