-- ==== Sys2Proof/Laws/Exec.lean ====
section
/-! SUPPORT. What the execute phase can do, said once for all instructions: it raises one named fault and commits nothing,
or it completes and leaves the fault latch and the key vector alone. -/

namespace Sys2Proof.Machine

/-- t has s's fault latch and key vector. -/
abbrev State.SameLatchKeys (s t : State) : Prop :=
  t.fault = s.fault ∧ t.fcause = s.fcause ∧ t.fpc = s.fpc ∧ t.fword = s.fword ∧ t.finfo = s.finfo ∧ t.keys = s.keys

/-- How an execute phase of i, entered in s, may end in t. -/
abbrev EndsWell (i : Instr) (s t : State) : Prop :=
  (∃ e : Trap, e.cause ≠ .none ∧ t = s.takeFault (s.pc - 2) (encode i) e) ∨ s.SameLatchKeys t

theorem State.SameLatchKeys.refl (s : State) : s.SameLatchKeys s := ⟨rfl, rfl, rfl, rfl, rfl, rfl⟩

theorem State.writeRun_sameLatchKeys (s : State) (k : Nat) (bs : List Byte) : s.SameLatchKeys (s.writeRun k bs) := by
  rw [State.writeRun_sameButRegs]
  exact ⟨rfl, rfl, rfl, rfl, rfl, rfl⟩

theorem State.skipIf_sameLatchKeys (s : State) (b : Bool) : s.SameLatchKeys (s.skipIf b) := by
  unfold State.skipIf
  split <;> exact ⟨rfl, rfl, rfl, rfl, rfl, rfl⟩

/-- Committing ends well when the committed state does and every raised fault is named. -/
theorem commit_endsWell {i : Instr} {s : State} {r : Except Trap State}
    (hok : ∀ t, r = .ok t → s.SameLatchKeys t) (herr : ∀ e, r = .error e → e.cause ≠ .none) :
    ∃ t, commit i s r = .next t ∧ EndsWell i s t := by
  rcases commit_cases i s r with ⟨t, hr, hc⟩ | ⟨e, hr, hc⟩
  · exact ⟨t, hc, Or.inr (hok t hr)⟩
  · exact ⟨_, hc, Or.inl ⟨e, herr e hr, rfl⟩⟩

theorem addr_error_cause {c : Config} {a : Nat} {e : Trap} (h : addr c a = .error e) : e.cause ≠ .none := by
  rw [(addr_error h).2.2]; exact FaultCause.noConfusion

/-- Committing a memory write run ends well. -/
theorem commit_store_endsWell (c : Config) (i : Instr) (s : State) (a : Nat) (bs : List Byte) :
    ∃ t, commit i s ((memWriteRun c s.mem a bs).map s.setMem) = .next t ∧ EndsWell i s t := by
  refine commit_endsWell (fun t ht => ?_) (fun e he => ?_)
  · cases hm : memWriteRun c s.mem a bs with
    | ok m => rw [hm] at ht; cases ht; exact ⟨rfl, rfl, rfl, rfl, rfl, rfl⟩
    | error e => rw [hm] at ht; cases ht
  · cases hm : memWriteRun c s.mem a bs with
    | ok m => rw [hm] at he; cases he
    | error e' =>
      rw [hm] at he
      cases he
      obtain ⟨k, _, hk, _⟩ := memWriteRun_error hm
      exact addr_error_cause hk

/-- Committing what is made of a memory read run ends well. -/
theorem commit_load_endsWell (c : Config) (i : Instr) (s : State) (a len : Nat) (f : List Byte → State)
    (hf : ∀ bs, s.SameLatchKeys (f bs)) :
    ∃ t, commit i s ((memReadRun c s.mem a len).map f) = .next t ∧ EndsWell i s t := by
  refine commit_endsWell (fun t ht => ?_) (fun e he => ?_)
  · cases hm : memReadRun c s.mem a len with
    | ok bs => rw [hm] at ht; cases ht; exact hf bs
    | error e => rw [hm] at ht; cases ht
  · cases hm : memReadRun c s.mem a len with
    | ok bs => rw [hm] at he; cases he
    | error e' =>
      rw [hm] at he
      cases he
      obtain ⟨k, _, hk, _⟩ := memReadRun_error hm
      exact addr_error_cause hk

/-- Committing what is made of a key number ends well. -/
theorem commit_key_endsWell (c : Config) (i : Instr) (s : State) (b : Byte) (f : Fin 16 → State)
    (hf : ∀ k, s.SameLatchKeys (f k)) :
    ∃ t, commit i s ((keyIdx c b).map f) = .next t ∧ EndsWell i s t := by
  refine commit_endsWell (fun t ht => ?_) (fun e he => ?_)
  · cases hm : keyIdx c b with
    | ok k => rw [hm] at ht; cases ht; exact hf k
    | error e => rw [hm] at ht; cases ht
  · cases hm : keyIdx c b with
    | ok k => rw [hm] at he; cases he
    | error e' =>
      rw [hm] at he
      cases he
      rw [(keyIdx_error hm).2.2]
      exact FaultCause.noConfusion

/-- Every execute phase answers a next state and ends well. -/
theorem execWith_endsWell (c : Config) (r : Byte) (i : Instr) (s : State) :
    ∃ t, execWith c r i s = .next t ∧ EndsWell i s t := by
  have hskip := State.skipIf_sameLatchKeys s
  cases i with
  | ret ign =>
    refine commit_endsWell (fun t ht => ?_) (fun e he => ?_)
    · cases hm : s.pop with
      | ok p =>
        rw [hm] at ht
        cases ht
        obtain ⟨_, _, h2⟩ := State.pop_ok hm
        simp only [h2]
        exact ⟨rfl, rfl, rfl, rfl, rfl, rfl⟩
      | error e => rw [hm] at ht; cases ht
    · cases hm : s.pop with
      | ok p => rw [hm] at he; cases he
      | error e' => rw [hm] at he; cases he; rw [(State.pop_error hm).2]; exact FaultCause.noConfusion
  | call nnn =>
    refine commit_endsWell (fun t ht => ?_) (fun e he => ?_)
    · cases hm : s.push s.pc with
      | ok p =>
        rw [hm] at ht
        cases ht
        obtain ⟨_, h2⟩ := State.push_ok hm
        rw [h2]
        exact ⟨rfl, rfl, rfl, rfl, rfl, rfl⟩
      | error e => rw [hm] at ht; cases ht
    · cases hm : s.push s.pc with
      | ok p => rw [hm] at he; cases he
      | error e' => rw [hm] at he; cases he; rw [(State.push_error hm).2]; exact FaultCause.noConfusion
  | ldB x => exact commit_store_endsWell c _ s _ _
  | ldMemVx x => exact commit_store_endsWell c _ s _ _
  | ldVxMem x => exact commit_load_endsWell c _ s _ _ _ (s.writeRun_sameLatchKeys 0)
  | drw x y n => exact commit_load_endsWell c _ s _ _ _ fun _ => ⟨rfl, rfl, rfl, rfl, rfl, rfl⟩
  | skp x ign => exact commit_key_endsWell c _ s _ _ fun _ => hskip _
  | sknp x ign => exact commit_key_endsWell c _ s _ _ fun _ => hskip _
  | seImm x kk => exact ⟨_, rfl, Or.inr (hskip _)⟩
  | sneImm x kk => exact ⟨_, rfl, Or.inr (hskip _)⟩
  | seReg x y ign => exact ⟨_, rfl, Or.inr (hskip _)⟩
  | sneReg x y ign => exact ⟨_, rfl, Or.inr (hskip _)⟩
  | ldVxK x =>
    simp only [execWith, execLdVxK]
    split <;> exact ⟨_, rfl, Or.inr ⟨rfl, rfl, rfl, rfl, rfl, rfl⟩⟩
  | _ => exact ⟨_, rfl, Or.inr ⟨rfl, rfl, rfl, rfl, rfl, rfl⟩⟩

/-- The step on the state vector is `stepWith` without the count beside it. -/
theorem Block.step_next {c : Config} {r : Byte} {b : Block} {t : State}
    (h : stepWith c r { toBlock := b, draws := 0 } = .next t) : b.step c r = .next t.toBlock := by
  simp [Block.step, h]

/-- A faulted block is stuck (60_exceptions.md R229). -/
theorem Block.step_faulted {c : Config} {r : Byte} {b : Block} (h : b.fault = true) : b.step c r = .next b :=
  Block.step_next (cycle_faulted h)

/-- Every step answers a next state. -/
theorem stepWith_ends (c : Config) (r : Byte) (s : State) : ∃ t, stepWith c r s = .next t := by
  unfold stepWith cycle
  by_cases hf : s.fault = true
  · exact ⟨_, if_pos hf⟩
  · rw [if_neg hf]
    cases fetch c s with
    | error e => exact ⟨_, rfl⟩
    | ok w =>
      obtain ⟨t, ht, _⟩ := execWith_endsWell c r (decodeWord w) s.advance
      simp only [ht]
      exact ⟨_, rfl⟩

end Sys2Proof.Machine
end

