-- ==== Sys2Proof/Laws/PerInstr.lean ====
section
/-! SUPPORT. For every instruction: its encoding is a word of its own row of spec/opcode_table.json (the row's match under
the row's mask), and a no-op's word is in the no-op space (30_encoding.md R74 to R80). -/

namespace Sys2Proof.Laws.EncodesRow

/-- The opcode table's mask of the instruction's row; a no-op word is fixed by its no-op key alone. -/
def rowMask : Instr → Word
  | .nop _ => 0x0000
  | .cls _ | .ret _ => 0xF00F
  | .jp _ | .call _ | .seImm _ _ | .sneImm _ _ | .seReg _ _ _ | .ldImm _ _ | .addImm _ _ => 0xF000
  | .ldReg _ _ | .orReg _ _ | .andReg _ _ | .xorReg _ _ | .addReg _ _ | .sub _ _ | .shr _ _ | .subn _ _ | .shl _ _ => 0xF00F
  | .sneReg _ _ _ | .ldI _ | .jpV0 _ | .rnd _ _ | .drw _ _ _ => 0xF000
  | .skp _ _ | .sknp _ _ => 0xF00F
  | .ldVxDt _ | .ldVxK _ | .ldDtVx _ | .ldStVx _ | .addI _ | .ldF _ | .ldB _ | .ldMemVx _ | .ldVxMem _ => 0xF0FF

/-- The opcode table's match of the instruction's row. -/
def rowMatch : Instr → Word
  | .nop _ => 0x0000
  | .cls _ => 0x0000
  | .ret _ => 0x000E
  | .jp _ => 0x1000
  | .call _ => 0x2000
  | .seImm _ _ => 0x3000
  | .sneImm _ _ => 0x4000
  | .seReg _ _ _ => 0x5000
  | .ldImm _ _ => 0x6000
  | .addImm _ _ => 0x7000
  | .ldReg _ _ => 0x8000
  | .orReg _ _ => 0x8001
  | .andReg _ _ => 0x8002
  | .xorReg _ _ => 0x8003
  | .addReg _ _ => 0x8004
  | .sub _ _ => 0x8005
  | .shr _ _ => 0x8006
  | .subn _ _ => 0x8007
  | .shl _ _ => 0x800E
  | .sneReg _ _ _ => 0x9000
  | .ldI _ => 0xA000
  | .jpV0 _ => 0xB000
  | .rnd _ _ => 0xC000
  | .drw _ _ _ => 0xD000
  | .skp _ _ => 0xE00E
  | .sknp _ _ => 0xE001
  | .ldVxDt _ => 0xF007
  | .ldVxK _ => 0xF00A
  | .ldDtVx _ => 0xF015
  | .ldStVx _ => 0xF018
  | .addI _ => 0xF01E
  | .ldF _ => 0xF029
  | .ldB _ => 0xF033
  | .ldMemVx _ => 0xF055
  | .ldVxMem _ => 0xF065

/-- The instruction, if well formed, encodes to a word of its row. -/
def Statement (i : Instr) : Prop :=
  i.wf = true → encode i &&& rowMask i = rowMatch i ∧ (kindNumber i = 0 → isNoopWord (encode i) = true)

/-- A word under the mask 0xF000 is its family. -/
theorem fam_row (w : Word) : w &&& 0xF000 = famOf w ++ (0 : Addr12) := by
  refine BitVec.eq_of_getLsbD_eq fun i hi => ?_
  rw [bit_addr]
  interval_cases i <;> simp [famOf]

/-- A word under the mask 0xF00F is its family and its low nibble. -/
theorem famN_row (w : Word) : w &&& 0xF00F = famOf w ++ (0 : Byte) ++ nOf w := by
  refine BitVec.eq_of_getLsbD_eq fun i hi => ?_
  rw [bit_mid]
  interval_cases i <;> simp [famOf, nOf]

/-- A word under the mask 0xF0FF is its family and its low byte. -/
theorem famK_row (w : Word) : w &&& 0xF0FF = famOf w ++ (0 : Nibble) ++ kkOf w := by
  refine BitVec.eq_of_getLsbD_eq fun i hi => ?_
  rw [bit_xk]
  interval_cases i <;> simp [famOf, kkOf]

theorem nop (w : Word) : Statement (.nop w) := fun h => ⟨by simp [rowMask, rowMatch], fun _ => h⟩
theorem cls (ign : Byte) : Statement (.cls ign) := fun _ =>
  ⟨by simp only [rowMask, rowMatch, famN_row, encode]; simp; try rfl, by simp [kindNumber]⟩
theorem ret (ign : Byte) : Statement (.ret ign) := fun _ =>
  ⟨by simp only [rowMask, rowMatch, famN_row, encode]; simp; try rfl, by simp [kindNumber]⟩
theorem jp (nnn : Addr12) : Statement (.jp nnn) := fun _ =>
  ⟨by simp only [rowMask, rowMatch, fam_row, encode]; simp; try rfl, by simp [kindNumber]⟩
theorem call (nnn : Addr12) : Statement (.call nnn) := fun _ =>
  ⟨by simp only [rowMask, rowMatch, fam_row, encode]; simp; try rfl, by simp [kindNumber]⟩
theorem seImm (x : Nibble) (kk : Byte) : Statement (.seImm x kk) := fun _ =>
  ⟨by simp only [rowMask, rowMatch, fam_row, encode]; simp; try rfl, by simp [kindNumber]⟩
theorem sneImm (x : Nibble) (kk : Byte) : Statement (.sneImm x kk) := fun _ =>
  ⟨by simp only [rowMask, rowMatch, fam_row, encode]; simp; try rfl, by simp [kindNumber]⟩
theorem seReg (x : Nibble) (y : Nibble) (ign : Nibble) : Statement (.seReg x y ign) := fun _ =>
  ⟨by simp only [rowMask, rowMatch, fam_row, encode]; simp; try rfl, by simp [kindNumber]⟩
theorem ldImm (x : Nibble) (kk : Byte) : Statement (.ldImm x kk) := fun _ =>
  ⟨by simp only [rowMask, rowMatch, fam_row, encode]; simp; try rfl, by simp [kindNumber]⟩
theorem addImm (x : Nibble) (kk : Byte) : Statement (.addImm x kk) := fun _ =>
  ⟨by simp only [rowMask, rowMatch, fam_row, encode]; simp; try rfl, by simp [kindNumber]⟩
theorem ldReg (x : Nibble) (y : Nibble) : Statement (.ldReg x y) := fun _ =>
  ⟨by simp only [rowMask, rowMatch, famN_row, encode]; simp; try rfl, by simp [kindNumber]⟩
theorem orReg (x : Nibble) (y : Nibble) : Statement (.orReg x y) := fun _ =>
  ⟨by simp only [rowMask, rowMatch, famN_row, encode]; simp; try rfl, by simp [kindNumber]⟩
theorem andReg (x : Nibble) (y : Nibble) : Statement (.andReg x y) := fun _ =>
  ⟨by simp only [rowMask, rowMatch, famN_row, encode]; simp; try rfl, by simp [kindNumber]⟩
theorem xorReg (x : Nibble) (y : Nibble) : Statement (.xorReg x y) := fun _ =>
  ⟨by simp only [rowMask, rowMatch, famN_row, encode]; simp; try rfl, by simp [kindNumber]⟩
theorem addReg (x : Nibble) (y : Nibble) : Statement (.addReg x y) := fun _ =>
  ⟨by simp only [rowMask, rowMatch, famN_row, encode]; simp; try rfl, by simp [kindNumber]⟩
theorem sub (x : Nibble) (y : Nibble) : Statement (.sub x y) := fun _ =>
  ⟨by simp only [rowMask, rowMatch, famN_row, encode]; simp; try rfl, by simp [kindNumber]⟩
theorem shr (x : Nibble) (ign : Nibble) : Statement (.shr x ign) := fun _ =>
  ⟨by simp only [rowMask, rowMatch, famN_row, encode]; simp; try rfl, by simp [kindNumber]⟩
theorem subn (x : Nibble) (y : Nibble) : Statement (.subn x y) := fun _ =>
  ⟨by simp only [rowMask, rowMatch, famN_row, encode]; simp; try rfl, by simp [kindNumber]⟩
theorem shl (x : Nibble) (ign : Nibble) : Statement (.shl x ign) := fun _ =>
  ⟨by simp only [rowMask, rowMatch, famN_row, encode]; simp; try rfl, by simp [kindNumber]⟩
theorem sneReg (x : Nibble) (y : Nibble) (ign : Nibble) : Statement (.sneReg x y ign) := fun _ =>
  ⟨by simp only [rowMask, rowMatch, fam_row, encode]; simp; try rfl, by simp [kindNumber]⟩
theorem ldI (nnn : Addr12) : Statement (.ldI nnn) := fun _ =>
  ⟨by simp only [rowMask, rowMatch, fam_row, encode]; simp; try rfl, by simp [kindNumber]⟩
theorem jpV0 (nnn : Addr12) : Statement (.jpV0 nnn) := fun _ =>
  ⟨by simp only [rowMask, rowMatch, fam_row, encode]; simp; try rfl, by simp [kindNumber]⟩
theorem rnd (x : Nibble) (kk : Byte) : Statement (.rnd x kk) := fun _ =>
  ⟨by simp only [rowMask, rowMatch, fam_row, encode]; simp; try rfl, by simp [kindNumber]⟩
theorem drw (x : Nibble) (y : Nibble) (n : Nibble) : Statement (.drw x y n) := fun _ =>
  ⟨by simp only [rowMask, rowMatch, fam_row, encode]; simp; try rfl, by simp [kindNumber]⟩
theorem skp (x : Nibble) (ign : Nibble) : Statement (.skp x ign) := fun _ =>
  ⟨by simp only [rowMask, rowMatch, famN_row, encode]; simp; try rfl, by simp [kindNumber]⟩
theorem sknp (x : Nibble) (ign : Nibble) : Statement (.sknp x ign) := fun _ =>
  ⟨by simp only [rowMask, rowMatch, famN_row, encode]; simp; try rfl, by simp [kindNumber]⟩
theorem ldVxDt (x : Nibble) : Statement (.ldVxDt x) := fun _ =>
  ⟨by simp only [rowMask, rowMatch, famK_row, encode]; simp; try rfl, by simp [kindNumber]⟩
theorem ldVxK (x : Nibble) : Statement (.ldVxK x) := fun _ =>
  ⟨by simp only [rowMask, rowMatch, famK_row, encode]; simp; try rfl, by simp [kindNumber]⟩
theorem ldDtVx (x : Nibble) : Statement (.ldDtVx x) := fun _ =>
  ⟨by simp only [rowMask, rowMatch, famK_row, encode]; simp; try rfl, by simp [kindNumber]⟩
theorem ldStVx (x : Nibble) : Statement (.ldStVx x) := fun _ =>
  ⟨by simp only [rowMask, rowMatch, famK_row, encode]; simp; try rfl, by simp [kindNumber]⟩
theorem addI (x : Nibble) : Statement (.addI x) := fun _ =>
  ⟨by simp only [rowMask, rowMatch, famK_row, encode]; simp; try rfl, by simp [kindNumber]⟩
theorem ldF (x : Nibble) : Statement (.ldF x) := fun _ =>
  ⟨by simp only [rowMask, rowMatch, famK_row, encode]; simp; try rfl, by simp [kindNumber]⟩
theorem ldB (x : Nibble) : Statement (.ldB x) := fun _ =>
  ⟨by simp only [rowMask, rowMatch, famK_row, encode]; simp; try rfl, by simp [kindNumber]⟩
theorem ldMemVx (x : Nibble) : Statement (.ldMemVx x) := fun _ =>
  ⟨by simp only [rowMask, rowMatch, famK_row, encode]; simp; try rfl, by simp [kindNumber]⟩
theorem ldVxMem (x : Nibble) : Statement (.ldVxMem x) := fun _ =>
  ⟨by simp only [rowMask, rowMatch, famK_row, encode]; simp; try rfl, by simp [kindNumber]⟩

end Sys2Proof.Laws.EncodesRow
end

