-- ==== Sys2Proof/Tests/Slice0.lean ====
section
/-! SUPPORT. The model's own tests. Expected results are the spec's: the vectors W1 to W10 and V1 to V122 of
95_test_vectors.md and the encodings of 30_encoding.md. Then a witness for the hypotheses of each statement. -/

namespace Sys2Proof.Tests

open Sys2Proof.Machine

/-! ## Helpers -/

/-- The start state of a vector: reset, with a word at 0x200. -/
def onWord (w : Word) : State := State.reset.placeWord defaults w

/-- The same with some registers set. -/
def withV (s : State) (l : List (Nibble × Byte)) : State := l.foldl (fun s p => s.writeV p.1 p.2) s

/-- The same with some bytes of memory set. -/
def withM (s : State) (l : List (Nat × Byte)) : State :=
  l.foldl (fun s p => s.setMem (Memory.write defaults s.mem p.1 p.2)) s

/-- The parameters of the vectors marked `fault`. -/
def faultPolicy : Config := { defaults with oob := .fault }

/-- The state an outcome goes on with, if it goes on. -/
def next? (o : Host.Outcome State Fault Refusal) : Option State :=
  match o with
  | .next t => some t
  | .fault _ => none
  | .refused _ => none

/-- The same with one key set by the host. -/
def withKey (s : State) (k : Fin 16) (b : Bool) : State := { s with toBlock := hostKeySet k b s.toBlock }

/-- One look at the block after a step. -/
def afterStep {α : Type} (s : State) (f : Block → α) : Option α := (next? (step s)).map fun t => f t.toBlock

/-- One look at the block after a step with other parameters or a given RND byte. -/
def afterStepWith {α : Type} (c : Config) (r : Byte) (s : State) (f : Block → α) : Option α :=
  (next? (stepWith c r s)).map fun t => f t.toBlock

/-- The state after a step that goes on. -/
def afterOf (o : Host.Outcome State Fault Refusal) : State := (next? o).getD State.reset

/-! ## Well-formedness -/

theorem test_wf_refuses_nop_outside_noop_space :
    (Instr.nop 0x00E0).wf = false ∧ (Instr.nop 0x1234).wf = false ∧ (Instr.nop 0x8120).wf = false ∧
      (Instr.nop 0xE19E).wf = false ∧ (Instr.nop 0xF065).wf = false := by decide

theorem test_wf_accepts_nop_in_noop_space :
    (Instr.nop 0x0FFF).wf = true ∧ (Instr.nop 0x8008).wf = true ∧ (Instr.nop 0xE000).wf = true ∧
      (Instr.nop 0xF0FF).wf = true := by decide

/-! ## Decoding: each constructor by a word written out from 30_encoding.md R74 to R79 -/

theorem test_decode_families_0_to_4 :
    decodeWord 0x0001 = .nop 0x0001 ∧ decodeWord 0x00E0 = .cls 0x0E ∧ decodeWord 0x0120 = .cls 0x12 ∧
      decodeWord 0x00EE = .ret 0x0E ∧ decodeWord 0x0FFE = .ret 0xFF ∧ decodeWord 0x1ABC = .jp 0xABC ∧
      decodeWord 0x2ABC = .call 0xABC ∧ decodeWord 0x3A5C = .seImm 0xA 0x5C ∧
      decodeWord 0x4A5C = .sneImm 0xA 0x5C := by decide

theorem test_decode_families_5_to_7 :
    decodeWord 0x5127 = .seReg 1 2 7 ∧ decodeWord 0x6A5C = .ldImm 0xA 0x5C ∧ decodeWord 0x7A5C = .addImm 0xA 0x5C := by
  decide

theorem test_decode_family_8 :
    decodeWord 0x8120 = .ldReg 1 2 ∧ decodeWord 0x8121 = .orReg 1 2 ∧ decodeWord 0x8122 = .andReg 1 2 ∧
      decodeWord 0x8123 = .xorReg 1 2 ∧ decodeWord 0x8124 = .addReg 1 2 ∧ decodeWord 0x8125 = .sub 1 2 ∧
      decodeWord 0x8AB6 = .shr 0xA 0xB ∧ decodeWord 0x8127 = .subn 1 2 ∧ decodeWord 0x812E = .shl 1 2 ∧
      decodeWord 0x8008 = .nop 0x8008 := by decide

theorem test_decode_families_9_to_D :
    decodeWord 0x9127 = .sneReg 1 2 7 ∧ decodeWord 0xAABC = .ldI 0xABC ∧ decodeWord 0xBABC = .jpV0 0xABC ∧
      decodeWord 0xCA5C = .rnd 0xA 0x5C ∧ decodeWord 0xD125 = .drw 1 2 5 := by decide

theorem test_decode_family_E :
    decodeWord 0xE19E = .skp 1 9 ∧ decodeWord 0xE10E = .skp 1 0 ∧ decodeWord 0xE1A1 = .sknp 1 0xA ∧
      decodeWord 0xE191 = .sknp 1 9 ∧ decodeWord 0xE19F = .nop 0xE19F := by decide

theorem test_decode_family_F :
    decodeWord 0xF207 = .ldVxDt 2 ∧ decodeWord 0xF20A = .ldVxK 2 ∧ decodeWord 0xF215 = .ldDtVx 2 ∧
      decodeWord 0xF218 = .ldStVx 2 ∧ decodeWord 0xF21E = .addI 2 ∧ decodeWord 0xF229 = .ldF 2 ∧
      decodeWord 0xF233 = .ldB 2 ∧ decodeWord 0xF255 = .ldMemVx 2 ∧ decodeWord 0xFF65 = .ldVxMem 0xF ∧
      decodeWord 0xF017 = .nop 0xF017 := by decide

/-- Bytes are read big-endian, two and no more; the table's word is the instruction's word. -/
theorem test_decode_bytes :
    decode [0xD1, 0x25, 0xAA] = .ok (.drw 1 2 5, [0xAA]) ∧ decode [0xD1] = .error .truncated ∧
      decode [] = .error .truncated := ⟨rfl, rfl, rfl⟩

theorem test_decodeTableWord :
    decodeTableWord 16 0x8124 = some (.addReg 1 2) ∧ decodeTableWord 16 0x0000 = some (.cls 0) ∧
      decodeTableWord 16 0xF065 = some (.ldVxMem 0) := by decide

/-- `withFetchWord` lays the word out big-endian at PC, and the next step runs it (V31). -/
theorem test_withFetchWord_runs :
    afterStep (State.reset.withFetchWord 16 0x6042) (fun t => (t.readV 0, t.pc, t.byteAt defaults 0x200)) =
      some (0x42, 0x202, 0x60) := by decide

/-- The canonical words of 30_encoding.md R82 and their text (program P4). -/
theorem test_canonical_words :
    encode (canonical (.cls 0)) = 0x00E0 ∧ encode (canonical (.ret 0)) = 0x00EE ∧
      encode (canonical (.skp 1 0)) = 0xE19E ∧ encode (canonical (.sknp 1 0)) = 0xE1A1 ∧
      encode (canonical (.shr 3 4)) = 0x8306 ∧ encode (canonical (.shl 3 4)) = 0x830E ∧
      encode (canonical (.seReg 1 2 7)) = 0x5120 ∧ encode (canonical (.sneReg 1 2 7)) = 0x9120 := by decide

theorem test_asm_text :
    asmText (.drw 1 2 5) = "DRW V1, V2, 0x5" ∧ asmText (.ldImm 0 0x0A) = "LD V0, 0x0A" ∧
      asmText (.jp 0x20E) = "JP 0x20E" ∧ asmText (.nop 0x8008) = "DW 0x8008" := by decide

/-! ## One step of each instruction -/

/-- V1: the timer phase, on a no-op. -/
theorem test_nop_V1 :
    afterStep ((onWord 0x800F).setDt 3) (fun t => (t.pc, t.dt, t.st)) = some (0x202, 2, 0) := by decide

/-- V4: PC is 16 bits wide and wraps at the fetch advance. -/
theorem test_nop_V4_pc_wraps :
    afterStep (withM (State.reset.setPc 0xFFFE) [(0xFFE, 0x80), (0xFFF, 0x0F)]) Block.pc = some 0x0000 := by decide

/-- V119: VF is left alone. -/
theorem test_cls_V119 :
    afterStep (withV ((onWord 0x00E0).setFb [(0, 0), (63, 31)]) [(0xF, 0x55)]) (fun t => (t.fb, t.readV 0xF)) =
      some ([], 0x55) := by decide

/-- V15. -/
theorem test_ret_V15 :
    afterStep ((onWord 0x00EE).setStack (Vector.replicate 16 0x206) 1) (fun t => (t.pc, t.sp, t.stack[0])) =
      some (0x206, 0, 0x206) := by decide

/-- V16: the fault leaves PC and the timers. -/
theorem test_ret_V16_underflow :
    afterStep ((onWord 0x00EE).setDt 5) (fun t => (faultPorts t, t.pc, t.dt)) =
      some ((true, 2, 0x200, 0x00EE, 0), 0x200, 5) := by decide

/-- V10. -/
theorem test_jp_V10 : afterStep (onWord 0x1200) Block.pc = some 0x200 := by decide

/-- V5: the low byte is fetched from address 0. -/
theorem test_jp_V5_fetch_wraps :
    afterStep (withM (State.reset.setPc 0x0FFF) [(0xFFF, 0x12), (0x000, 0x34)]) Block.pc = some 0x0234 := by decide

/-- V12: the last free entry. -/
theorem test_call_V12 :
    afterStep ((onWord 0x2300).setStack (Vector.replicate 16 0) 15) (fun t => (t.pc, t.sp, t.stack[15], t.stack[14])) =
      some (0x300, 16, 0x202, 0) := by decide

/-- V13. -/
theorem test_call_V13_overflow :
    afterStep ((onWord 0x2300).setStack (Vector.replicate 16 0) 16) (fun t => (faultPorts t, t.pc, t.sp)) =
      some ((true, 1, 0x200, 0x2300, 16), 0x200, 16) := by decide

/-- V20. -/
theorem test_seImm_V20 : afterStep (withV (onWord 0x3310) [(3, 0x10)]) Block.pc = some 0x204 := by decide

/-- V30: the skip wraps. -/
theorem test_seImm_V30_skip_wraps :
    afterStep (withM (State.reset.setPc 0xFFFC) [(0xFFC, 0x30), (0xFFD, 0x00)]) Block.pc = some 0x0000 := by decide

/-- V22. -/
theorem test_sneImm_V22 : afterStep (withV (onWord 0x4310) [(3, 0x10)]) Block.pc = some 0x202 := by decide

/-- V23. -/
theorem test_sneImm_V23 : afterStep (withV (onWord 0x4310) [(3, 0x11)]) Block.pc = some 0x204 := by decide

/-- V25: the low nibble is ignored. -/
theorem test_seReg_V25 : afterStep (withV (onWord 0x5127) [(1, 7), (2, 7)]) Block.pc = some 0x204 := by decide

/-- V26. -/
theorem test_seReg_V26 : afterStep (withV (onWord 0x5120) [(1, 7), (2, 8)]) Block.pc = some 0x202 := by decide

/-- V27. -/
theorem test_sneReg_V27 : afterStep (withV (onWord 0x9120) [(1, 7), (2, 8)]) Block.pc = some 0x204 := by decide

/-- V28: a register never differs from itself. -/
theorem test_sneReg_V28 : afterStep (withV (onWord 0x9110) [(1, 9)]) Block.pc = some 0x202 := by decide

/-- V32. -/
theorem test_ldImm_V32 : afterStep (onWord 0x6FAA) (fun t => t.readV 0xF) = some 0xAA := by decide

/-- V33: the sum wraps and VF stays. -/
theorem test_addImm_V33 :
    afterStep (withV (onWord 0x7103) [(1, 0xFE), (0xF, 0x55)]) (fun t => (t.readV 1, t.readV 0xF)) = some (0x01, 0x55) := by
  decide

/-- V38. -/
theorem test_ldReg_V38 :
    afterStep (withV (onWord 0x81F0) [(0xF, 3)]) (fun t => (t.readV 1, t.readV 0xF)) = some (3, 3) := by decide

/-- V39: VF stays. -/
theorem test_or_V39 :
    afterStep (withV (onWord 0x8121) [(1, 0xF0), (2, 0x0C), (0xF, 0x55)]) (fun t => (t.readV 1, t.readV 0xF)) =
      some (0xFC, 0x55) := by decide

/-- V43: VF is a destination like any other. -/
theorem test_or_V43 : afterStep (withV (onWord 0x8F21) [(0xF, 0x0F), (2, 0xF0)]) (fun t => t.readV 0xF) = some 0xFF := by
  decide

/-- V40. -/
theorem test_and_V40 :
    afterStep (withV (onWord 0x8122) [(1, 0xF0), (2, 0x3C), (0xF, 0x55)]) (fun t => (t.readV 1, t.readV 0xF)) =
      some (0x30, 0x55) := by decide

/-- V41. -/
theorem test_xor_V41 :
    afterStep (withV (onWord 0x8123) [(1, 0xF0), (2, 0x3C), (0xF, 0x55)]) (fun t => (t.readV 1, t.readV 0xF)) =
      some (0xCC, 0x55) := by decide

/-- V42: source and destination the same. -/
theorem test_xor_V42 : afterStep (withV (onWord 0x8113) [(1, 0x5A)]) (fun t => t.readV 1) = some 0 := by decide

/-- V47: the flag wins over the sum. -/
theorem test_add_V47_flag_wins : afterStep (withV (onWord 0x8F14) [(0xF, 0x10), (1, 0x20)]) (fun t => t.readV 0xF) = some 0 := by
  decide

/-- V48: VF is read before it is written. -/
theorem test_add_V48_flag_read_first :
    afterStep (withV (onWord 0x81F4) [(0xF, 0xFF), (1, 0x01)]) (fun t => (t.readV 1, t.readV 0xF)) = some (0x00, 1) := by
  decide

/-- W2, fourth row. -/
theorem test_sub_W2 :
    afterStep (withV (onWord 0x8125) [(1, 0x00), (2, 0xFF)]) (fun t => (t.readV 1, t.readV 0xF)) = some (0x01, 0) := by decide

/-- V52. -/
theorem test_sub_V52 :
    afterStep (withV (onWord 0x81F5) [(0xF, 0x01), (1, 0x05)]) (fun t => (t.readV 1, t.readV 0xF)) = some (0x04, 1) := by
  decide

/-- V54. -/
theorem test_subn_V54 :
    afterStep (withV (onWord 0x8127) [(1, 0x07), (2, 0x05)]) (fun t => (t.readV 1, t.readV 0xF)) = some (0xFE, 0) := by decide

/-- V55: equal operands do not borrow. -/
theorem test_subn_V55 :
    afterStep (withV (onWord 0x8127) [(1, 0x33), (2, 0x33)]) (fun t => (t.readV 1, t.readV 0xF)) = some (0x00, 1) := by decide

/-- V59: the y field is ignored. -/
theorem test_shr_V59 :
    afterStep (withV (onWord 0x8346) [(3, 0x05), (4, 0x99)]) (fun t => (t.readV 3, t.readV 4, t.readV 0xF)) =
      some (0x02, 0x99, 1) := by decide

/-- V61. -/
theorem test_shr_V61_flag_wins : afterStep (withV (onWord 0x8F06) [(0xF, 0x02)]) (fun t => t.readV 0xF) = some 0 := by decide

/-- W4, third row. -/
theorem test_shl_W4 :
    afterStep (withV (onWord 0x830E) [(3, 0x81)]) (fun t => (t.readV 3, t.readV 0xF)) = some (0x02, 1) := by decide

/-- V65. -/
theorem test_shl_V65_flag_wins : afterStep (withV (onWord 0x8F0E) [(0xF, 0x40)]) (fun t => t.readV 0xF) = some 0 := by decide

/-- V71. -/
theorem test_ldI_V71 : afterStep (onWord 0xAFFF) Block.i = some 0x0FFF := by decide

/-- V19: the sum is not masked to 12 bits. -/
theorem test_jpV0_V19 : afterStep (withV (onWord 0xBFFF) [(0, 0xFF)]) Block.pc = some 0x10FE := by decide

/-- V66. -/
theorem test_rnd_V66 : afterStepWith defaults 0xA7 (onWord 0xC10F) (fun t => t.readV 1) = some 0x07 := by decide

/-- V69. -/
theorem test_rnd_V69 : afterStepWith defaults 0x5A (onWord 0xCFF0) (fun t => t.readV 0xF) = some 0x50 := by decide

/-- V109: the start position wraps, columns 64 and 65 and rows 32 to 34 are clipped. -/
theorem test_drw_V109 :
    afterStep (withV ((onWord 0xD125).setI 0x082) [(1, 0x7E), (2, 0x3E)]) (fun t => (t.fb, t.readV 0xF)) =
      some ([(62, 30), (63, 30), (62, 31)], 0) := by decide

/-- V112: the collision is at the one pixel toggled, the clipped one does not count. -/
theorem test_drw_V112 :
    afterStep (withM (withV (((onWord 0xD121).setI 0x300).setFb [(63, 0)]) [(1, 63)]) [(0x300, 0xC0)])
      (fun t => (t.fb, t.readV 0xF)) = some ([], 1) := by decide

/-- V99: the key number modulo 16. -/
theorem test_skp_V99 :
    afterStep (withV (withKey (onWord 0xE19E) 5 true) [(1, 0x15)]) Block.pc = some 0x204 := by decide

/-- V100. -/
theorem test_skp_V100_key_range :
    afterStepWith faultPolicy 0 (withV (withKey (onWord 0xE19E) 5 true) [(1, 0x15)]) faultPorts =
      some (true, 4, 0x200, 0xE19E, 0x0015) := by decide

/-- V101. -/
theorem test_sknp_V101 : afterStep (withV (onWord 0xE1A1) [(1, 5)]) Block.pc = some 0x204 := by decide

/-- V102. -/
theorem test_sknp_V102 :
    afterStep (withV (withKey (onWord 0xE1A1) 5 true) [(1, 5)]) Block.pc = some 0x202 := by decide

/-- V90: the value before the timer phase. -/
theorem test_ldVxDt_V90 :
    afterStep ((onWord 0xF307).setDt 0x20) (fun t => (t.readV 3, t.dt)) = some (0x20, 0x1F) := by decide

/-- V104: the lowest key wins. -/
theorem test_ldVxK_V104 :
    afterStep (withKey (withKey (onWord 0xF20A) 3 true) 9 true) (fun t => (t.readV 2, t.pc)) = some (3, 0x202) := by decide

/-- V103: with no key the step waits, and the timers run. -/
theorem test_ldVxK_V103 :
    afterStep (withV ((onWord 0xF20A).setDt 3) [(2, 0x77)]) (fun t => (t.readV 2, t.pc, t.dt)) =
      some (0x77, 0x200, 2) := by decide

/-- V92: the timer phase follows the write. -/
theorem test_ldDtVx_V92 : afterStep (withV (onWord 0xF015) [(0, 5)]) Block.dt = some 4 := by decide

/-- V94. -/
theorem test_ldDtVx_V94 : afterStep ((onWord 0xF015).setDt 9) Block.dt = some 0 := by decide

/-- V95. -/
theorem test_ldStVx_V95 : afterStep (withV (onWord 0xF018) [(0, 10)]) (fun t => (t.st, stNz t)) = some (9, true) := by decide

/-- V96. -/
theorem test_ldStVx_V96 : afterStep (withV (onWord 0xF018) [(0, 1)]) (fun t => (t.st, stNz t)) = some (0, false) := by decide

/-- V73: I is 16 bits wide and VF stays. -/
theorem test_addI_V73 :
    afterStep (withV ((onWord 0xF01E).setI 0x0FFF) [(0, 1), (0xF, 0x55)]) (fun t => (t.i, t.readV 0xF)) =
      some (0x1000, 0x55) := by decide

/-- V74. -/
theorem test_addI_V74 : afterStep (withV ((onWord 0xF01E).setI 0xFFFF) [(0, 1)]) Block.i = some 0x0000 := by decide

/-- V87. -/
theorem test_ldF_V87 : afterStep (withV (onWord 0xF029) [(0, 0x0F)]) Block.i = some 0x09B := by decide

/-- V89: no mask on the digit. -/
theorem test_ldF_V89 : afterStep (withV (onWord 0xF029) [(0, 0xFF)]) Block.i = some 0x54B := by decide

/-- V84: the run wraps at the top of memory. -/
theorem test_ldB_V84 :
    afterStep (withV ((onWord 0xF533).setI 0xFFF) [(5, 123)])
      (fun t => (t.byteAt defaults 0xFFF, t.byteAt defaults 0x000, t.byteAt defaults 0x001)) = some (1, 2, 3) := by decide

/-- V85: nothing is committed. -/
theorem test_ldB_V85_addr_range :
    afterStepWith faultPolicy 0 (withV ((onWord 0xF533).setI 0xFFF) [(5, 123)])
      (fun t => (faultPorts t, t.byteAt faultPolicy 0xFFF)) = some ((true, 3, 0x200, 0xF533, 0x1000), 0) := by decide

/-- V75: the byte after the run stays, and so does I. -/
theorem test_ldMemVx_V75 :
    afterStep (withM (withV ((onWord 0xF155).setI 0x300) [(0, 1), (1, 2)]) [(0x302, 0x77)])
      (fun t => (t.byteAt defaults 0x300, t.byteAt defaults 0x301, t.byteAt defaults 0x302, t.i)) =
      some (1, 2, 0x77, 0x300) := by decide

/-- V78: nothing is committed. -/
theorem test_ldMemVx_V78_addr_range :
    afterStepWith faultPolicy 0 (withV ((onWord 0xF255).setI 0xFFE) [(0, 0xA), (1, 0xB), (2, 0xC)])
      (fun t => (faultPorts t, t.byteAt faultPolicy 0xFFE, t.byteAt faultPolicy 0xFFF)) =
      some ((true, 3, 0x200, 0xF255, 0x1000), 0, 0) := by decide

/-- V79. -/
theorem test_ldVxMem_V79 :
    afterStep (withM ((onWord 0xF265).setI 0x300) [(0x300, 1), (0x301, 2), (0x302, 3), (0x303, 4)])
      (fun t => (t.readV 0, t.readV 1, t.readV 2, t.readV 3, t.i)) = some (1, 2, 3, 0, 0x300) := by decide

/-- V80: VF is one of the registers loaded. -/
theorem test_ldVxMem_V80 :
    afterStep (withM ((onWord 0xFF65).setI 0x300) [(0x30F, 0x99)]) (fun t => t.readV 0xF) = some 0x99 := by decide

/-! ## Fetch faults, the faulted block and the host's transactions -/

/-- V6: the fetch faults at 0x1000, and no word is recorded. -/
theorem test_fetch_V6 :
    afterStepWith faultPolicy 0 (State.reset.setPc 0x0FFF) (fun t => (faultPorts t, t.pc)) =
      some ((true, 3, 0x0FFF, 0, 0x1000), 0x0FFF) := by decide

/-- The start state of V120 to V122: the end state of V13 with DT = 4. -/
def afterV13 : State :=
  (afterOf (step ((onWord 0x2300).setStack (Vector.replicate 16 0) 16))).setDt 4

/-- V120. -/
theorem test_faulted_V120 : afterStep afterV13 (fun t => decide (t = afterV13.toBlock)) = some true := by decide

/-- V121. -/
theorem test_faulted_V121 :
    afterStep (withKey afterV13 3 true)
      (fun t => (t.keyDown 3, decide ({ t with keys := afterV13.keys } = afterV13.toBlock))) =
      some (true, true) := by decide

/-- V122. -/
theorem test_faulted_V122 : hostReset defaults afterV13.toBlock = State.reset.toBlock := by decide

/-- W8: the image `60 42 12 00` lies at 0x200. -/
theorem test_load_W8 :
    let t := (hostLoad defaults [0x60, 0x42, 0x12, 0x00] State.reset.toBlock).1
    (t.byteAt defaults 0x200, t.byteAt defaults 0x201, t.byteAt defaults 0x202, t.byteAt defaults 0x203) =
      (0x60, 0x42, 0x12, 0x00) := by decide

/-- Reset memory lists nothing, so a run from reset executes words 0x0000, which are CLS (V8). -/
theorem test_reset_runs_cls :
    afterStep State.reset (fun t => (t.pc, t.fb, t.fault)) = some (0x202, [], false) := by decide

/-! ## Witnesses: a concrete state and operands for the hypotheses of each statement that has some -/

theorem test_witness_DecodeOfEncode :
    (Instr.nop 0x0001).wf = true ∧ (Instr.ldVxMem 0xF).wf = true := by decide

theorem test_witness_DecodeFollowsOpcodeTable :
    (∃ r ∈ opcodeRows, 0x8AB6 &&& r.2.1 = r.1 ∧ r.2.2 = 16) ∧ ∀ r ∈ opcodeRows, 0x8008 &&& r.2.1 ≠ r.1 := by decide

theorem test_witness_IgnoredBitsIgnored : (State.reset.setStack (Vector.replicate 16 0) 1).sp ≠ 0 := by decide

theorem test_witness_StepRunsDecoded :
    (onWord 0x8124).fault = false ∧
      decode [(onWord 0x8124).byteAt defaults ((onWord 0x8124).pc.toNat % 4096),
        (onWord 0x8124).byteAt defaults (((onWord 0x8124).pc.toNat + 1) % 4096)] = .ok (.addReg 1 2, []) :=
  ⟨rfl, rfl⟩

/-- PC = 0xFFE is the last in range, 0xFFF the first out of it. -/
theorem test_witness_FetchBigEndian :
    defaults.oob = .wrap ∧ faultPolicy.oob = .fault ∧ (State.reset.setPc 0xFFE).pc.toNat + 1 < 4096 ∧
      (State.reset.setPc 0xFFF).fault = false ∧ 4096 ≤ (State.reset.setPc 0xFFF).pc.toNat + 1 := by decide

/-- A state that raises each cause: V13, V16, V6 (in the fetch), V85 (in the handler) and V100 without the key. -/
def faultStarts : List State :=
  [(onWord 0x2300).setStack (Vector.replicate 16 0) 16, onWord 0x00EE, State.reset.setPc 0x0FFF,
    (onWord 0xF533).setI 0xFFF, withV (onWord 0xE19E) [(1, 0x10)]]

theorem test_witness_FaultsArePrecise :
    ∀ s ∈ faultStarts, s.fault = false ∧ ∃ t, stepWith faultPolicy 0 s = .next t ∧ t.fault = true := by
  intro s hs
  simp only [faultStarts, List.mem_cons, List.not_mem_nil, or_false] at hs
  rcases hs with rfl | rfl | rfl | rfl | rfl <;> exact ⟨by decide, _, rfl, by decide⟩

theorem test_witness_FaultCausesComplete :
    faultStarts.map (fun s => afterStepWith faultPolicy 0 s (fun t => t.fcause.code)) =
      [some 1, some 2, some 3, some 3, some 4] := by decide

/-- Both sides: the last CALL that fits and the first that does not, the last RET and the one too many. -/
theorem test_witness_DefaultStepFaultsExactly :
    (onWord 0x2300).fault = false ∧ fetch defaults (onWord 0x2300) = .ok (encode (.call 0x300)) ∧
      (∃ t, step (onWord 0x2300) = .next t) ∧
      afterStep ((onWord 0x2300).setStack (Vector.replicate 16 0) 15) Block.fault = some false ∧
      afterStep ((onWord 0x2300).setStack (Vector.replicate 16 0) 16) Block.fault = some true ∧
      afterStep ((onWord 0x00EE).setStack (Vector.replicate 16 0) 1) Block.fault = some false ∧
      afterStep (onWord 0x00EE) Block.fault = some true :=
  ⟨by decide, rfl, ⟨_, rfl⟩, by decide, by decide, by decide, by decide⟩

theorem test_witness_FaultedBlockStuck :
    afterV13.fault = true ∧ (63 : Nat) < defaults.fbW ∧ (31 : Nat) < defaults.fbH ∧
      Transaction.step 0 ≠ .reset ∧
      (∃ σ rep, transact defaults (.step 0) { core := afterV13.toBlock, loadable := false } = .next (σ, rep)) ∧
      ∃ σ rep, transact defaults .reset { core := afterV13.toBlock, loadable := false } = .next (σ, rep) :=
  ⟨by decide, by decide, by decide, by decide, ⟨_, _, rfl⟩, ⟨_, _, rfl⟩⟩

/-- A word that loads DT, one that loads ST, and one that loads neither. -/
theorem test_witness_TimersCountDown :
    ∀ w ∈ [(0xF015 : Word), 0xF018, 0x800F], (onWord w).fault = false ∧ fetch defaults (onWord w) = .ok w ∧
      ∃ t, stepWith defaults 0 (onWord w) = .next t ∧ t.fault = false := by
  intro w hw
  simp only [List.mem_cons, List.not_mem_nil, or_false] at hw
  rcases hw with rfl | rfl | rfl <;> exact ⟨by decide, rfl, _, rfl, by decide⟩

theorem test_witness_NopAdvancesOnly :
    (onWord 0x800F).fault = false ∧ fetch defaults (onWord 0x800F) = .ok 0x800F ∧ isNoopWord 0x800F = true :=
  ⟨by decide, rfl, by decide⟩

theorem test_witness_IdleChangesOnlyTimers : (onWord 0x1200).Idle defaults := ⟨by decide, 0x200, rfl, by decide⟩

theorem test_reset_inv : State.reset.Inv := by decide

theorem test_witness_StepKeepsWellFormed : (onWord 0x6042).Inv ∧ ∃ t, step (onWord 0x6042) = .next t :=
  ⟨by decide, _, rfl⟩

theorem test_witness_TransactionsKeepWellFormed :
    defaults.Legal ∧ (onWord 0x6042).Wf defaults ∧
      (∃ σ rep, transact defaults (.step 0) { core := (onWord 0x6042).toBlock, loadable := true } = .next (σ, rep)) ∧
      ∃ σ rep, transact defaults (.load [0x60, 0x42]) { core := State.reset.toBlock, loadable := true } = .next (σ, rep) :=
  ⟨by decide, by decide, ⟨_, _, rfl⟩, ⟨_, _, rfl⟩⟩

theorem test_witness_IndexWriters :
    ∃ t, stepWith defaults 0 (onWord 0xA300) = .next t ∧ t.i ≠ (onWord 0xA300).i := ⟨_, rfl, by decide⟩

theorem test_witness_MemoryWriters :
    ∃ t, stepWith defaults 0 (withV (onWord 0xF033) [(0, 7)]) = .next t ∧ t.mem ≠ (withV (onWord 0xF033) [(0, 7)]).mem :=
  ⟨_, rfl, by decide⟩

theorem test_witness_FramebufferWriters :
    ∃ t, stepWith defaults 0 ((onWord 0xD125).setI 0x050) = .next t ∧ t.fb ≠ ((onWord 0xD125).setI 0x050).fb :=
  ⟨_, rfl, by decide⟩

theorem test_witness_KeysOnlyFromHost : ∃ t, stepWith defaults 0 (onWord 0xE19E) = .next t := ⟨_, rfl⟩

/-- The last entry, S[15], is written. -/
theorem test_witness_StackWriters :
    ∃ t, stepWith defaults 0 ((onWord 0x2300).setStack (Vector.replicate 16 0) 15) = .next t ∧ t.sp ≠ 15 ∧
      t.stack[15]? ≠ ((onWord 0x2300).setStack (Vector.replicate 16 0) 15).stack[15]? := ⟨_, rfl, by decide, by decide⟩

/-- One of the flag writers, and one instruction whose destination is VF. -/
theorem test_witness_FlagWriters :
    (∃ t, stepWith defaults 0 (withV (onWord 0x8124) [(1, 0xFF), (2, 0x01)]) = .next t ∧
      t.readV flagReg ≠ (withV (onWord 0x8124) [(1, 0xFF), (2, 0x01)]).readV flagReg) ∧
    ∃ t, stepWith defaults 0 (onWord 0x6FAA) = .next t ∧ t.readV flagReg ≠ (onWord 0x6FAA).readV flagReg :=
  ⟨⟨_, rfl, by decide⟩, ⟨_, rfl, by decide⟩⟩

theorem test_witness_SoundTimerUnobserved : ∃ t, stepWith defaults 0 (onWord 0xF018) = .next t := ⟨_, rfl⟩

/-- Two stacks that agree below SP = 1 and differ at S[1]. -/
theorem test_witness_StackAboveSpUnobserved :
    let s := (onWord 0x2300).setStack (Vector.replicate 16 0) 1
    (∀ j : Nat, j < s.sp.val → ((Vector.replicate 16 (0 : Word)).set 1 7)[j]? = s.stack[j]?) ∧
      (Vector.replicate 16 (0 : Word)).set 1 7 ≠ s.stack ∧ ∃ t, stepWith defaults 0 s = .next t :=
  ⟨by decide, by decide, _, rfl⟩

/-- SP = 0, 1, 15, 16: the two clauses of RET, the two of CALL, at their boundaries. -/
theorem test_witness_RetPops_CallPushes_CallThenRetReturns :
    State.reset.sp = 0 ∧ (State.reset.setStack (Vector.replicate 16 0) 1).sp ≠ 0 ∧
      (State.reset.setStack (Vector.replicate 16 0) 15).sp ≠ 16 ∧
      (State.reset.setStack (Vector.replicate 16 0) 16).sp = 16 := by decide

theorem test_witness_AddSetsCarry_SubtractSetsNoBorrow_ShiftsSetShiftedBit : (0xE : Nibble) ≠ flagReg := by decide

theorem test_witness_FlagWinsOverResult :
    (Instr.addReg flagReg 1, decide (255 < (State.reset.readV flagReg).toNat + (State.reset.readV 1).toNat)) ∈
      [(Instr.addReg flagReg 1, decide (255 < (State.reset.readV flagReg).toNat + (State.reset.readV 1).toNat))] := by
  decide

/-- I = 0xFFD is the last start of a three-byte run in range, 0xFFE the first out of it; under wrap every I is in range, and
each byte of the run has an address. -/
theorem test_witness_LdBStoresDigits :
    RunInRange faultPolicy (State.reset.setI 0xFFD) 3 ∧ ¬ RunInRange faultPolicy (State.reset.setI 0xFFE) 3 ∧
      RunInRange defaults (State.reset.setI 0xFFE) 3 ∧ addr defaults (0xFFE + 2) = .ok 0 ∧
      addr faultPolicy (0xFFD + 2) = .ok 0xFFF :=
  ⟨by decide, by decide, by decide, rfl, rfl⟩

/-- x = 0 and x = 15 at the last start in range and the first out of it, and a register inside and outside the run. -/
theorem test_witness_LdMemStoresRun_LdRegsLoadsRun :
    RunInRange faultPolicy (State.reset.setI 0xFFF) ((0 : Nibble).toNat + 1) ∧
      ¬ RunInRange faultPolicy (State.reset.setI 0x1000) ((0 : Nibble).toNat + 1) ∧
      RunInRange faultPolicy (State.reset.setI 0xFF0) ((0xF : Nibble).toNat + 1) ∧
      ¬ RunInRange faultPolicy (State.reset.setI 0xFF1) ((0xF : Nibble).toNat + 1) ∧
      (2 : Nibble).toNat ≤ (2 : Nibble).toNat ∧ (2 : Nibble).toNat < (3 : Nibble).toNat := by decide

theorem test_witness_StoredWordIsFetched :
    1 ≤ (1 : Nibble).toNat ∧ ∃ t, exec (.ldMemVx 1) (State.reset.setI 0x300) = .next t ∧
      (t.setPc 0x300).mem = t.mem ∧ (t.setPc 0x300).pc = (State.reset.setI 0x300).i :=
  ⟨by decide, _, rfl, rfl, rfl⟩

theorem test_witness_LdVxDtReadsTimer_TimerWritesThenTick :
    (onWord 0xF307).fault = false ∧ fetch defaults (onWord 0xF307) = .ok (0xF#4 ++ 3#4 ++ 0x07#8) ∧
      fetch defaults (onWord 0xF315) = .ok (0xF#4 ++ 3#4 ++ 0x15#8) ∧
      fetch defaults (onWord 0xF318) = .ok (0xF#4 ++ 3#4 ++ 0x18#8) :=
  ⟨by decide, rfl, rfl, rfl⟩

/-- Key numbers 15 and 16 under the policy fault, and any under wrap. -/
theorem test_witness_KeySkips :
    defaults.oob = .wrap ∧ faultPolicy.oob = .fault ∧ ((withV State.reset [(1, 15)]).readV 1).toNat < 16 ∧
      16 ≤ ((withV State.reset [(1, 16)]).readV 1).toNat := by decide

/-- Keys 3 and 9 pressed, with 3 the lowest; key 15 alone; and none pressed. -/
theorem test_witness_WaitKeyTakesLowest :
    let s := withKey (withKey State.reset 3 true) 9 true
    (s.keyDown 3 = true ∧ ∀ j : Fin 16, j < 3 → s.keyDown j = false) ∧
      ((withKey State.reset 15 true).keyDown 15 = true ∧
        ∀ j : Fin 16, j < 15 → (withKey State.reset 15 true).keyDown j = false) ∧
      (∀ k : Fin 16, (onWord 0xF20A).keyDown k = false) ∧ (onWord 0xF20A).fault = false ∧
      fetch defaults (onWord 0xF20A) = .ok (0xF#4 ++ 2#4 ++ 0x0A#8) :=
  ⟨by decide, by decide, by decide, by decide, rfl⟩

theorem test_witness_ClsClearsEveryPixel :
    (63 : Nat) < 64 ∧ (31 : Nat) < 32 ∧ State.reset.fault = false ∧ fetch defaults State.reset = .ok 0 :=
  ⟨by decide, by decide, by decide, rfl⟩

/-- No rows at an address out of range; one row at the last address and at the first out of range; a pixel covered and set,
and one outside the framebuffer. -/
theorem test_witness_DrawXorsAndCollides :
    RunInRange faultPolicy (State.reset.setI 0xFFF) (1 : Nibble).toNat ∧ (1 : Nibble) ≠ 0 ∧
      ¬ RunInRange faultPolicy (State.reset.setI 0x1000) (1 : Nibble).toNat ∧
      drawsAt defaults (State.reset.setI 0x050) 1 2 5 0 0 = true ∧
      Framebuffer.lit ((State.reset.setI 0x050).setFb [(0, 0)]).fb (0, 0) = true ∧
      ¬ ((64 : Nat) < defaults.fbW ∧ (0 : Nat) < defaults.fbH) := by decide

/-- W6: glyph 0 at (0, 0) of a clear framebuffer. -/
theorem test_witness_DrawTwiceRestores :
    (1 : Nibble) ≠ flagReg ∧ (2 : Nibble) ≠ flagReg ∧ Framebuffer.Wf defaults (State.reset.setI 0x050).fb ∧
      (∃ t, exec (.drw 1 2 5) (State.reset.setI 0x050) = .next t ∧ t.readV flagReg = 0) ∧
      drawsAt defaults (State.reset.setI 0x050) 1 2 5 0 0 = true :=
  ⟨by decide, by decide, by decide, ⟨_, rfl, by decide⟩, by decide⟩

/-- The addresses on both sides of the glyph table, and its first and last entries. -/
theorem test_witness_ResetValues :
    0x04F < defaults.fontBase ∧ defaults.fontBase + 80 ≤ 0x0A0 ∧ (15 : Nat) < 16 ∧
      glyphTable[0]? = some 0xF0 ∧ glyphTable[79]? = some 0x80 ∧
      State.reset.byteAt defaults 0x04F = 0 ∧ State.reset.byteAt defaults 0x050 = 0xF0 ∧
      State.reset.byteAt defaults 0x09F = 0x80 ∧ State.reset.byteAt defaults 0x0A0 = 0 := by decide

/-- The longest image that fits and the shortest that does not (70_reset_and_hazards.md R255), and a STEP. -/
theorem test_witness_LoadWritesImage :
    (List.replicate 3584 (0xFF : Byte)).length ≤ defaults.maxImage ∧
      defaults.maxImage < (List.replicate 3585 (0xFF : Byte)).length ∧
      [(0x60 : Byte), 0x42][1]? = some 0x42 ∧ 0x1FF < defaults.loadBase ∧
      ∃ σ rep, transact defaults (.step 0) { core := (onWord 0x6042).toBlock, loadable := true } = .next (σ, rep) := by
  rw [List.length_replicate, List.length_replicate]
  exact ⟨by decide, by decide, rfl, by decide, _, _, rfl⟩

end Sys2Proof.Tests
end

section
/-! The parametric machine keeps the block well formed: what an execute phase can do to memory and framebuffer, said once
for all instructions; the invariant over one step; then over each transaction of the host (00_scope.md R7, R8). -/

namespace Sys2Proof.Machine

/-- Everything committing a mapped result can do: commit the image of its value, or latch its fault. -/
theorem commit_map_next {α : Type} {i : Instr} {s t : State} {r : Except Trap α} {f : α → State}
    (h : commit i s (r.map f) = .next t) :
    (∃ a, r = .ok a ∧ t = f a) ∨ (∃ e, r = .error e ∧ t = s.takeFault (s.pc - 2) (encode i) e) := by
  cases r with
  | ok a => cases h; exact Or.inl ⟨a, rfl, rfl⟩
  | error e => cases h; exact Or.inr ⟨e, rfl, rfl⟩

/-- A skip writes PC at most. -/
theorem State.skipIf_eq_setPc (s : State) (b : Bool) : s.skipIf b = s.setPc (if b then s.pc + 2 else s.pc) := by
  cases b <;> rfl

/-- How the execute phase of i may leave memory: as it was, or, for the two store forms, after one run of writes at I
(20_memory.md R52). -/
abbrev MemEffect (c : Config) (i : Instr) (s t : State) : Prop :=
  t.mem = s.mem ∨ kindNumber i ∈ [32, 33] ∧ ∃ bs, memWriteRun c s.mem s.i.toNat bs = .ok t.mem

/-- How the execute phase of i may leave the framebuffer: as it was, cleared by CLS, or after DRW toggled the visible pixels
of a sprite (10_state.md R30). -/
abbrev FbEffect (c : Config) (i : Instr) (s t : State) : Prop :=
  t.fb = s.fb ∨ (kindNumber i = 1 ∧ t.fb = []) ∨
    kindNumber i = 23 ∧ ∃ px py rows, t.fb = (drawPixels s.fb false (spritePixels c px py rows)).1

/-- A store form writes memory by one run at I and leaves the framebuffer, also when it faults. -/
theorem commit_store_effects {c : Config} {i : Instr} {s t : State} {bs : List Byte} (hi : kindNumber i ∈ [32, 33])
    (h : commit i s ((memWriteRun c s.mem s.i.toNat bs).map s.setMem) = .next t) :
    MemEffect c i s t ∧ FbEffect c i s t := by
  rcases commit_map_next h with ⟨m, hm, rfl⟩ | ⟨e, -, rfl⟩
  · exact ⟨Or.inr ⟨hi, bs, hm⟩, Or.inl rfl⟩
  · exact ⟨Or.inl rfl, Or.inl rfl⟩

/-- A skip on a key leaves memory and framebuffer, also when it faults. -/
theorem commit_skipKey_effects {c : Config} {i : Instr} {s t : State} {b : Byte} {f : Fin 16 → Bool}
    (h : commit i s ((keyIdx c b).map (fun k => s.skipIf (f k))) = .next t) :
    MemEffect c i s t ∧ FbEffect c i s t := by
  rcases commit_map_next h with ⟨k, -, rfl⟩ | ⟨e, -, rfl⟩
  · rw [State.skipIf_eq_setPc]; exact ⟨Or.inl rfl, Or.inl rfl⟩
  · exact ⟨Or.inl rfl, Or.inl rfl⟩

/-- What every execute phase does to memory and framebuffer, faults included. -/
theorem execWith_effects {c : Config} {r : Byte} {i : Instr} {s t : State} (h : execWith c r i s = .next t) :
    MemEffect c i s t ∧ FbEffect c i s t := by
  cases i with
  | cls ign => cases h; exact ⟨Or.inl rfl, Or.inr (Or.inl ⟨rfl, rfl⟩)⟩
  | drw x y n =>
    rcases commit_map_next h with ⟨rows, -, rfl⟩ | ⟨e, -, rfl⟩
    · exact ⟨Or.inl rfl, Or.inr (Or.inr ⟨rfl, _, _, rows, rfl⟩)⟩
    · exact ⟨Or.inl rfl, Or.inl rfl⟩
  | ldB | ldMemVx => exact commit_store_effects (by simp [kindNumber]) h
  | ldVxMem x =>
    rcases commit_map_next h with ⟨bs, -, rfl⟩ | ⟨e, -, rfl⟩
    · rw [State.writeRun_sameButRegs]; exact ⟨Or.inl rfl, Or.inl rfl⟩
    · exact ⟨Or.inl rfl, Or.inl rfl⟩
  | ret ign =>
    rcases commit_map_next h with ⟨p, hp, rfl⟩ | ⟨e, -, rfl⟩
    · obtain ⟨-, -, hs⟩ := State.pop_ok hp
      rw [hs]; exact ⟨Or.inl rfl, Or.inl rfl⟩
    · exact ⟨Or.inl rfl, Or.inl rfl⟩
  | call nnn =>
    rcases commit_map_next h with ⟨u, hu, rfl⟩ | ⟨e, -, rfl⟩
    · obtain ⟨_, hs⟩ := State.push_ok hu
      rw [hs]; exact ⟨Or.inl rfl, Or.inl rfl⟩
    · exact ⟨Or.inl rfl, Or.inl rfl⟩
  | skp | sknp => exact commit_skipKey_effects h
  | seImm | sneImm | seReg | sneReg => cases h; rw [State.skipIf_eq_setPc]; exact ⟨Or.inl rfl, Or.inl rfl⟩
  | ldVxK x =>
    simp only [execWith, execLdVxK] at h
    split at h <;> cases h <;> exact ⟨Or.inl rfl, Or.inl rfl⟩
  | _ => cases h; exact ⟨Or.inl rfl, Or.inl rfl⟩

/-- Memory at its reset contents is in canonical form. -/
theorem Memory.wf_nil (c : Config) : Memory.Wf c [] := ⟨List.Pairwise.nil, nofun⟩

/-- The clear framebuffer is in canonical form. -/
theorem Framebuffer.wf_nil (c : Config) : Framebuffer.Wf c [] := ⟨List.Pairwise.nil, nofun⟩

/-- An effect on memory keeps its canonical form. -/
theorem MemEffect.wf {c : Config} {i : Instr} {s t : State} (h : MemEffect c i s t) (hm : Memory.Wf c s.mem) :
    Memory.Wf c t.mem := by
  rcases h with hmem | ⟨-, bs, hrun⟩
  · rwa [hmem]
  · exact memWriteRun_wf hrun hm

/-- An effect on the framebuffer keeps its canonical form: DRW draws visible pixels only. -/
theorem FbEffect.wf {c : Config} {i : Instr} {s t : State} (h : FbEffect c i s t) (hfb : Framebuffer.Wf c s.fb) :
    Framebuffer.Wf c t.fb := by
  rcases h with heq | ⟨-, hnil⟩ | ⟨-, px, py, rows, hdraw⟩
  · rwa [heq]
  · rw [hnil]; exact Framebuffer.wf_nil c
  · have hvisible : ∀ p ∈ spritePixels c px py rows, p.1 < c.fbW ∧ p.2 < c.fbH := fun p hp => by
      obtain ⟨hx, hy, -⟩ := mem_spritePixels.mp hp
      exact ⟨hx, hy⟩
    rw [hdraw]
    exact drawPixels_wf _ hvisible false hfb

/-- Raising a fault with a named cause leaves the latch consistent, whatever it held. -/
theorem State.takeFault_latchWf (s : State) (p w : Word) {e : Trap} (he : e.cause ≠ .none) :
    (s.takeFault p w e).LatchWf := by
  refine ⟨fun hf => ?_, fun _ => he⟩
  rw [State.takeFault_fault] at hf
  cases hf

/-- An execute phase that ends well leaves the latch consistent. -/
theorem EndsWell.latchWf {i : Instr} {s t : State} (h : EndsWell i s t) (hs : s.LatchWf) : t.LatchWf := by
  rcases h with ⟨e, he, rfl⟩ | ⟨hf, hc, hp, hw, hi, -⟩
  · exact s.takeFault_latchWf _ _ he
  · unfold Block.LatchWf
    rwa [hf, hc, hp, hw, hi]

/-- Every execute phase keeps the block well formed. -/
theorem execWith_wf {c : Config} {r : Byte} {i : Instr} {s t : State} (hs : s.Wf c) (h : execWith c r i s = .next t) :
    t.Wf c := by
  obtain ⟨hm, hfb, hlatch⟩ := hs
  obtain ⟨hmem, hpix⟩ := execWith_effects h
  obtain ⟨u, hu, hends⟩ := execWith_endsWell c r i s
  obtain rfl : t = u := by rw [h] at hu; cases hu; rfl
  exact ⟨hmem.wf hm, hpix.wf hfb, hends.latchWf hlatch⟩

/-- A failed fetch raises ADDR_RANGE, a named cause. -/
theorem fetch_error_cause {c : Config} {s : State} {e : Trap} (h : fetch c s = .error e) : e.cause ≠ .none := by
  rcases fetch_error h with ha | ⟨-, ha⟩ <;> exact addr_error_cause ha

/-- The end of a step writes the timers at most, so it keeps the block well formed. -/
theorem State.finish_wf {c : Config} {s : State} (h : s.Wf c) : s.finish.Wf c := by
  cases hf : s.fault with
  | true => rwa [State.finish_of_fault hf]
  | false => rw [State.finish_of_ok hf]; exact h

/-- Every step of the parametric machine keeps the block well formed. -/
theorem stepWith_wf {c : Config} {r : Byte} {s t : State} (hs : s.Wf c) (h : stepWith c r s = .next t) : t.Wf c := by
  rcases cycle_next h with ⟨-, rfl⟩ | ⟨-, e, he, rfl⟩ | ⟨-, w, u, -, hu, rfl⟩
  · exact hs
  · obtain ⟨hm, hfb, -⟩ := hs
    exact ⟨hm, hfb, s.takeFault_latchWf _ _ (fetch_error_cause he)⟩
  · have hadv : s.advance.Wf c := hs
    exact State.finish_wf (execWith_wf hadv hu)

/-- A step of the block is a step of the machine with any count beside it. -/
theorem Block.step_inv {c : Config} {r : Byte} {b b' : Block} (h : b.step c r = .next b') :
    ∃ t : State, stepWith c r { toBlock := b, draws := 0 } = .next t ∧ b' = t.toBlock := by
  obtain ⟨t, ht⟩ := stepWith_ends c r { toBlock := b, draws := 0 }
  rw [Block.step_next ht] at h
  cases h
  exact ⟨t, ht, rfl⟩

/-- Every step of the block keeps it well formed. -/
theorem Block.step_wf {c : Config} {r : Byte} {b b' : Block} (hb : b.Wf c) (h : b.step c r = .next b') : b'.Wf c := by
  obtain ⟨t, ht, rfl⟩ := Block.step_inv h
  exact stepWith_wf hb ht

/-- RESET gives a well-formed block for any parameters. -/
theorem Block.resetWith_wf (c : Config) : (Block.resetWith c).Wf c :=
  ⟨Memory.wf_nil c, Framebuffer.wf_nil c, fun _ => ⟨rfl, rfl, rfl, rfl⟩, nofun⟩

/-- LOAD keeps the block well formed: an accepted image ends inside memory. -/
theorem hostLoad_wf {c : Config} (hc : c.Legal) (image : List Byte) {b : Block} (hb : b.Wf c) :
    (hostLoad c image b).1.Wf c := by
  obtain ⟨-, hbase, -⟩ := hc
  unfold hostLoad
  split
  · rename_i hlen
    obtain ⟨hm, hfb, hlatch⟩ := hb
    have hend : c.loadBase + image.length ≤ memSize := by unfold Config.maxImage at hlen; omega
    exact ⟨Memory.wf_writeBytes c image hend hm, hfb, hlatch⟩
  · exact hb

/-- Settles O20: the transactions one by one; only a LOAD needs the parameters legal. -/
theorem transactionsKeepWellFormed : Obligations.TransactionsKeepWellFormed := by
  unfold Obligations.TransactionsKeepWellFormed
  intro c tr σ σ' rep hc hwf h
  cases tr with
  | reset => cases h; exact Block.resetWith_wf c
  | load image =>
    simp only [transact] at h
    split at h
    · cases h; exact hostLoad_wf hc image hwf
    · cases h
  | step r =>
    simp only [transact] at h
    split at h
    · rename_i b hb
      cases h
      exact Block.step_wf hwf hb
    · cases h
    · cases h
  | keySet k b => cases h; exact hwf

/-- `cycle` asks its execute phase only for the state after the advance, which holds the same count of draws. -/
theorem step_eq_stepWith (s : State) : step s = stepWith defaults (Config.randomByte s.draws) s := by
  unfold step stepWith cycle
  simp only [exec_eq_execWith, State.advance_draws]

/-- Settles O8: the step by the law on the execute phase, whose draw the advance does not move. -/
theorem stepIsParametricStep : Obligations.StepIsParametricStep :=
  ⟨step_eq_stepWith, exec_eq_execWith⟩

end Sys2Proof.Machine
end

section
/-! Who writes what (10_state.md R21 to R30): what an execute phase can do to I, the call stack, VF and the key vector,
said once for all instructions; then that a step changes any of them only by the execute phase of the fetched word. -/

namespace Sys2Proof.Machine

/-! ## The execute phase -/

/-- The destination V[x] an instruction other than a flag writer names; for LD Vx, [I] the last register of its run
(10_state.md R21, R22). -/
def destReg : Instr → Option Nibble
  | .ldImm x _ | .addImm x _ | .ldReg x _ | .orReg x _ | .andReg x _ | .xorReg x _ => some x
  | .rnd x _ | .ldVxDt x | .ldVxK x | .ldVxMem x => some x
  | _ => none

/-- Which instructions name a destination. -/
theorem kindNumber_of_destReg {i : Instr} {x : Nibble} (h : destReg i = some x) :
    kindNumber i ∈ [8, 9, 10, 11, 12, 13, 22, 26, 27, 34] := by
  cases i <;> simp [destReg, kindNumber] at h ⊢

/-- A destination is the x field of the word (30_encoding.md R71). -/
theorem destReg_decodeWord {w : Word} {x : Nibble} (h : destReg (decodeWord w) = some x) : xOf w = x := by
  have h8 (hd : destReg (decode8 w) = some x) : xOf w = x := by
    unfold decode8 at hd; split at hd <;> simp_all [destReg]
  have hF (hd : destReg (decodeF w) = some x) : xOf w = x := by
    unfold decodeF at hd; split at hd <;> simp_all [destReg]
  have h0 : destReg (decode0 w) = none := by unfold decode0; split <;> rfl
  have hE : destReg (decodeE w) = none := by unfold decodeE; split <;> rfl
  unfold decodeWord at h
  split at h <;> simp_all [destReg]

/-- How the execute phase of i may leave I: as it was, or written by LD I, ADD I or LD F (10_state.md R24). -/
abbrev IndexEffect (i : Instr) (s t : State) : Prop := t.i = s.i ∨ kindNumber i ∈ [20, 30, 31]

/-- How the execute phase of i may leave the call stack: as it was, with SP moved by RET, or with SP moved and the entry
at the old SP written by CALL (10_state.md R25, R26). -/
abbrev StackEffect (i : Instr) (s t : State) : Prop :=
  (t.sp = s.sp ∧ t.stack = s.stack) ∨ (kindNumber i = 2 ∧ t.stack = s.stack) ∨
    kindNumber i = 4 ∧ ∃ (w : Word) (hs : s.sp.val < 16), t.stack = s.stack.set s.sp.val w hs

/-- How the execute phase of i may leave VF: as it was, written by a flag writer, or as the named destination
(10_state.md R22). -/
abbrev FlagEffect (i : Instr) (s t : State) : Prop :=
  t.readV flagReg = s.readV flagReg ∨ kindNumber i ∈ [14, 15, 16, 17, 18, 23] ∨ destReg i = some flagReg

/-- The three together. -/
abbrev WriterEffects (i : Instr) (s t : State) : Prop := IndexEffect i s t ∧ StackEffect i s t ∧ FlagEffect i s t

/-- Leaving I, the stack and the registers alone is an effect of every instruction. -/
theorem WriterEffects.of_unwritten {i : Instr} {s t : State} (hi : t.i = s.i) (hsp : t.sp = s.sp)
    (hstk : t.stack = s.stack) (hv : t.v = s.v) : WriterEffects i s t :=
  ⟨Or.inl hi, Or.inl ⟨hsp, hstk⟩, Or.inl (by simp only [Block.readV, hv])⟩

/-- A write to V[x] reaches VF only when x is F. -/
theorem FlagEffect.of_writeV {i : Instr} {x : Nibble} (hd : destReg i = some x) (s : State) (b : Byte) :
    FlagEffect i s (s.writeV x b) := by
  by_cases hx : x = flagReg
  · exact Or.inr (Or.inr (hx ▸ hd))
  · exact Or.inl (State.readV_writeV_ne s b hx)

/-- A run V[0] to V[x] reaches VF only when x is F. -/
theorem FlagEffect.of_writeRun {i : Instr} {x : Nibble} (hd : destReg i = some x) (s : State) {bs : List Byte}
    (hlen : bs.length = x.toNat + 1) : FlagEffect i s (s.writeRun 0 bs) := by
  have hx16 := x.isLt
  by_cases hx : x = flagReg
  · exact Or.inr (Or.inr (hx ▸ hd))
  · have hx15 : x.toNat ≠ 15 := fun h => hx (BitVec.eq_of_toNat_eq h)
    have hend : bs[flagReg.toNat - 0]? = none := List.getElem?_eq_none (by rw [hlen]; show _ ≤ 15; omega)
    exact Or.inl (by rw [State.readV_writeRun s 0 bs (by omega), hend]; simp)

/-- Committing has the effects of the committed state; raising a fault writes none of the three. -/
theorem commit_writerEffects {α : Type} {i : Instr} {s t : State} {r : Except Trap α} {f : α → State}
    (h : commit i s (r.map f) = .next t) (hf : ∀ a, r = .ok a → WriterEffects i s (f a)) : WriterEffects i s t := by
  rcases commit_map_next h with ⟨a, ha, rfl⟩ | ⟨e, -, rfl⟩
  · exact hf a ha
  · exact .of_unwritten rfl rfl rfl rfl

/-- A skip writes PC at most. -/
theorem State.skipIf_writerEffects (i : Instr) (s : State) (b : Bool) : WriterEffects i s (s.skipIf b) := by
  rw [State.skipIf_eq_setPc]
  exact .of_unwritten rfl rfl rfl rfl

/-- What every execute phase does to I, the call stack and VF, faults included. -/
theorem execWith_writerEffects {c : Config} {r : Byte} {i : Instr} {s t : State} (h : execWith c r i s = .next t) :
    WriterEffects i s t := by
  cases i with
  | ldI | addI | ldF => cases h; exact ⟨Or.inr (by simp [kindNumber]), Or.inl ⟨rfl, rfl⟩, Or.inl rfl⟩
  | ret ign =>
    refine commit_writerEffects h fun p hp => ?_
    obtain ⟨-, -, hs⟩ := State.pop_ok hp
    rw [hs]; exact ⟨Or.inl rfl, Or.inr (Or.inl ⟨rfl, rfl⟩), Or.inl rfl⟩
  | call nnn =>
    refine commit_writerEffects h fun u hu => ?_
    obtain ⟨hsp, hs⟩ := State.push_ok hu
    rw [hs]; exact ⟨Or.inl rfl, Or.inr (Or.inr ⟨rfl, _, hsp, rfl⟩), Or.inl rfl⟩
  | addReg | sub | shr | subn | shl =>
    cases h; exact ⟨Or.inl rfl, Or.inl ⟨rfl, rfl⟩, Or.inr (Or.inl (by simp [kindNumber]))⟩
  | drw x y n =>
    exact commit_writerEffects h fun _ _ =>
      ⟨Or.inl rfl, Or.inl ⟨rfl, rfl⟩, Or.inr (Or.inl (by simp [kindNumber]))⟩
  | ldImm | addImm | ldReg | orReg | andReg | xorReg | rnd | ldVxDt =>
    cases h; exact ⟨Or.inl rfl, Or.inl ⟨rfl, rfl⟩, FlagEffect.of_writeV rfl s _⟩
  | ldVxK x =>
    simp only [execWith, execLdVxK] at h
    split at h <;> cases h
    · exact ⟨Or.inl rfl, Or.inl ⟨rfl, rfl⟩, FlagEffect.of_writeV rfl s _⟩
    · exact .of_unwritten rfl rfl rfl rfl
  | ldVxMem x =>
    refine commit_writerEffects h fun bs hbs => ?_
    have hflag : FlagEffect (.ldVxMem x) s (s.writeRun 0 bs) := FlagEffect.of_writeRun rfl s (memReadRun_ok hbs).1
    rw [State.writeRun_sameButRegs] at hflag ⊢
    exact ⟨Or.inl rfl, Or.inl ⟨rfl, rfl⟩, hflag⟩
  | ldB | ldMemVx => exact commit_writerEffects h fun _ _ => .of_unwritten rfl rfl rfl rfl
  | skp | sknp => exact commit_writerEffects h fun _ _ => s.skipIf_writerEffects _ _
  | seImm | sneImm | seReg | sneReg => cases h; exact s.skipIf_writerEffects _ _
  | _ => cases h; exact .of_unwritten rfl rfl rfl rfl

/-- No execute phase writes the key vector (10_state.md R29). -/
theorem execWith_keys {c : Config} {r : Byte} {i : Instr} {s t : State} (h : execWith c r i s = .next t) :
    t.keys = s.keys := by
  obtain ⟨u, hu, hends⟩ := execWith_endsWell c r i s
  obtain rfl : t = u := by rw [h] at hu; cases hu; rfl
  rcases hends with ⟨e, -, rfl⟩ | ⟨-, -, -, -, -, hkeys⟩
  · rfl
  · exact hkeys

/-! ## The step -/

/-- f looks at none of what a step itself writes around the execute phase: PC, the timers and the fault latch. -/
structure IgnoresBookkeeping {α : Type} (f : State → α) : Prop where
  setPc : ∀ s w, f (s.setPc w) = f s := by intros; rfl
  setDt : ∀ s b, f (s.setDt b) = f s := by intros; rfl
  setSt : ∀ s b, f (s.setSt b) = f s := by intros; rfl
  takeFault : ∀ s p w e, f (s.takeFault p w e) = f s := by intros; rfl

theorem IgnoresBookkeeping.finish {α : Type} {f : State → α} (hf : IgnoresBookkeeping f) (s : State) :
    f s.finish = f s := by
  unfold State.finish
  split
  · rfl
  · exact (hf.setSt _ _).trans (hf.setDt _ _)

/-- A step changes such an f only by the execute phase of the fetched word. -/
theorem stepWith_changes {α : Type} (f : State → α) (hf : IgnoresBookkeeping f) {c : Config} {r : Byte}
    {s t : State} (h : stepWith c r s = .next t) (hne : f t ≠ f s) :
    ∃ w u, fetch c s = .ok w ∧ execWith c r (decodeWord w) s.advance = .next u ∧ f u ≠ f s.advance := by
  rcases cycle_next h with ⟨-, rfl⟩ | ⟨-, e, -, rfl⟩ | ⟨-, w, u, hw, hu, rfl⟩
  · exact absurd rfl hne
  · exact absurd (hf.takeFault _ _ _ _) hne
  · rw [hf.finish, ← hf.setPc s (s.pc + 2)] at hne
    exact ⟨w, u, hw, hu, hne⟩

/-- Settles O21: what an execute phase does to I. -/
theorem indexWriters : Obligations.IndexWriters := by
  unfold Obligations.IndexWriters
  intro c r s t h hne
  obtain ⟨w, u, hw, hu, hne⟩ := stepWith_changes (fun s : State => s.i) {} h hne
  obtain ⟨hindex, -, -⟩ := execWith_writerEffects hu
  exact ⟨w, hw, hindex.resolve_left hne⟩

/-- Settles O23: what an execute phase does to the framebuffer. -/
theorem framebufferWriters : Obligations.FramebufferWriters := by
  unfold Obligations.FramebufferWriters
  intro c r s t h hne
  obtain ⟨w, u, hw, hu, hne⟩ := stepWith_changes (fun s : State => s.fb) {} h hne
  obtain ⟨-, heq | ⟨hcls, -⟩ | ⟨hdrw, -⟩⟩ := execWith_effects hu
  · exact absurd heq hne
  · exact ⟨w, hw, by simp [hcls]⟩
  · exact ⟨w, hw, by simp [hdrw]⟩

/-- Settles O24: no execute phase writes the keys, and nothing else in a step does. -/
theorem keysOnlyFromHost : Obligations.KeysOnlyFromHost := by
  unfold Obligations.KeysOnlyFromHost
  intro c r s t h
  by_contra hne
  obtain ⟨w, u, -, hu, hne⟩ := stepWith_changes (fun s : State => s.keys) {} h hne
  exact hne (execWith_keys hu)

/-- Settles O25: what an execute phase does to the call stack; CALL writes one entry, at the SP it is entered with. -/
theorem stackWriters : Obligations.StackWriters := by
  unfold Obligations.StackWriters
  intro c r s t h
  refine ⟨fun hne => ?_, fun j hne => ?_⟩
  · obtain ⟨w, u, hw, hu, hne⟩ := stepWith_changes (fun s : State => s.sp) {} h hne
    obtain ⟨-, ⟨heq, -⟩ | ⟨hret, -⟩ | ⟨hcall, -⟩, -⟩ := execWith_writerEffects hu
    · exact absurd heq hne
    · exact ⟨w, hw, by simp [hret]⟩
    · exact ⟨w, hw, by simp [hcall]⟩
  · obtain ⟨w, u, hw, hu, hne⟩ := stepWith_changes (fun s : State => s.stack[j]?) {} h hne
    obtain ⟨-, ⟨-, heq⟩ | ⟨-, heq⟩ | ⟨hcall, a, hs, hset⟩, -⟩ := execWith_writerEffects hu
    · exact absurd (congrArg (·[j]?) heq) hne
    · exact absurd (congrArg (·[j]?) heq) hne
    · refine ⟨?_, w, hw, hcall⟩
      by_contra hj
      exact hne ((congrArg (·[j]?) hset).trans (Vector.getElem?_set_ne hs (Ne.symm hj)))

/-- Settles O26: what an execute phase does to VF, and that a named destination is the word's x field. -/
theorem flagWriters : Obligations.FlagWriters := by
  unfold Obligations.FlagWriters
  intro c r s t h hne
  obtain ⟨w, u, hw, hu, hne⟩ := stepWith_changes (fun s : State => s.readV flagReg) {} h hne
  obtain ⟨-, -, heq | hflag | hdest⟩ := execWith_writerEffects hu
  · exact absurd heq hne
  · exact ⟨w, hw, Or.inl hflag⟩
  · exact ⟨w, hw, Or.inr ⟨destReg_decodeWord hdest, kindNumber_of_destReg hdest⟩⟩

end Sys2Proof.Machine
end

section
/-! What no instruction reads (10_state.md R26, R28, R33): the stack entries at or above SP, ST, and the count of draws. A
run from a state with these replaced is the same run but for them, said once for every execute phase and then for the
step. -/

namespace Sys2Proof.Machine

/-- Other values for a state's stack, ST and count of draws. -/
structure Hidden where
  stack : Vector Word 16
  st : Byte
  draws : Nat

/-- The state with these parts replaced. -/
def State.hide (s : State) (u : Hidden) : State := { s with stack := u.stack, st := u.st, draws := u.draws }

/-- Stacks a and b hold the same entries below SP = p. -/
abbrev AgreeBelow (p : Fin 17) (a b : Vector Word 16) : Prop := ∀ j : Nat, j < p.val → a[j]? = b[j]?

/-- Beside a run from s to t, one from s with the parts u ends in t with the parts u': below SP the stacks agree, and a
part that u took from s, u' takes from t. -/
structure Carries (s t : State) (u u' : Hidden) : Prop where
  below : AgreeBelow t.sp u'.stack t.stack
  stack : u.stack = s.stack → u'.stack = t.stack
  st : u.st = s.st → u'.st = t.st
  draws : u.draws = s.draws → u'.draws = t.draws

/-- o, answered from s, and o', answered from s with the parts u, are the same next state but for these parts. -/
abbrev Blind (s : State) (u : Hidden) (o o' : Host.Outcome State Fault Refusal) : Prop :=
  ∃ t u', o = .next t ∧ o' = .next (t.hide u') ∧ Carries s t u u'

/-! ## The execute phase -/

section Phase
variable {s : State} {u : Hidden} (hu : AgreeBelow s.sp u.stack s.stack)
include hu

/-- Committing is blind when what is committed is: raising a fault reads PC alone. -/
theorem commit_blind {α : Type} {i : Instr} (r : Except Trap α) {f f' : α → State}
    (hf : ∀ a, r = .ok a → f' a = (f a).hide u ∧ Carries s (f a) u u) :
    Blind s u (commit i s (r.map f)) (commit i (s.hide u) (r.map f')) := by
  cases r with
  | ok a =>
    obtain ⟨heq, hcarries⟩ := hf a rfl
    exact ⟨f a, u, rfl, congrArg Host.Outcome.next heq, hcarries⟩
  | error e => exact ⟨_, u, rfl, rfl, hu, id, id, id⟩

/-- A skip reads and writes PC at most. -/
theorem State.skipIf_hide (b : Bool) : (s.hide u).skipIf b = (s.skipIf b).hide u ∧ Carries s (s.skipIf b) u u := by
  cases b <;> exact ⟨rfl, hu, id, id, id⟩

theorem State.skipIf_blind (b : Bool) : Blind s u (.next (s.skipIf b)) (.next ((s.hide u).skipIf b)) := by
  obtain ⟨heq, hcarries⟩ := State.skipIf_hide hu b
  exact ⟨_, u, rfl, congrArg Host.Outcome.next heq, hcarries⟩

/-- A pop reads the entry below SP, which is not replaced. -/
theorem State.pop_hide : (s.hide u).pop = s.pop.map fun p => (p.1, p.2.hide u) := by
  by_cases hsp : s.sp.val = 0
  · have hpop : s.pop = _ := dif_pos hsp
    rw [hpop]; exact dif_pos hsp
  · have hpop : s.pop = _ := dif_neg hsp
    have htop := hu (s.sp.val - 1) (by omega)
    have hlt : s.sp.val - 1 < 16 := by omega
    rw [Vector.getElem?_eq_getElem hlt, Vector.getElem?_eq_getElem hlt, Option.some.injEq] at htop
    rw [hpop, ← htop]; exact dif_neg hsp

theorem execRet_blind (ign : Byte) : Blind s u (execRet ign s) (execRet ign (s.hide u)) := by
  have hrun : execRet ign (s.hide u) =
      commit (.ret ign) (s.hide u) (s.pop.map fun p => (p.2.hide u).setPc p.1) := by
    rw [execRet, State.pop_hide hu]
    cases s.pop <;> rfl
  rw [hrun]
  refine commit_blind hu _ fun p hp => ⟨rfl, ?_⟩
  obtain ⟨-, -, hs⟩ := State.pop_ok hp
  rw [hs]
  exact ⟨fun j hj => hu j (Nat.lt_of_lt_of_le hj (Nat.sub_le _ 1)), id, id, id⟩

/-- CALL writes the entry at SP alike in both stacks, so they agree below the new SP. -/
theorem execCall_blind (nnn : Addr12) : Blind s u (execCall nnn s) (execCall nnn (s.hide u)) := by
  by_cases hs : s.sp.val < 16
  · have hpush : s.push s.pc = _ := dif_pos hs
    have hpush' : (s.hide u).push (s.hide u).pc = _ := dif_pos hs
    rw [execCall, execCall, hpush, hpush']
    refine ⟨_, { u with stack := u.stack.set s.sp.val s.pc hs }, rfl, rfl, fun j hj => ?_, fun h => ?_, id, id⟩
    · show (u.stack.set s.sp.val s.pc hs)[j]? = (s.stack.set s.sp.val s.pc hs)[j]?
      have hj' : j < s.sp.val + 1 := hj
      by_cases hjs : s.sp.val = j
      · subst hjs; simp
      · rw [Vector.getElem?_set_ne hs hjs, Vector.getElem?_set_ne hs hjs]
        exact hu j (by omega)
    · exact congrArg (Vector.set · s.sp.val s.pc hs) h
  · have hpush : s.push s.pc = _ := dif_neg hs
    have hpush' : (s.hide u).push (s.hide u).pc = _ := dif_neg hs
    rw [execCall, execCall, hpush, hpush']
    exact ⟨_, u, rfl, rfl, hu, id, id, id⟩

end Phase

/-- A run of registers is written whatever the replaced parts are. -/
theorem State.writeRun_hide (s : State) (u : Hidden) (k : Nat) (bs : List Byte) :
    (s.hide u).writeRun k bs = (s.writeRun k bs).hide u := by
  induction bs generalizing s k with
  | nil => rfl
  | cons b bs ih => exact ih (s.writeV _ b) (k + 1)

/-- No execute phase reads ST, the count of draws or an entry at or above SP. -/
theorem execWith_blind (c : Config) (r : Byte) (i : Instr) {s : State} {u : Hidden}
    (hu : AgreeBelow s.sp u.stack s.stack) : Blind s u (execWith c r i s) (execWith c r i (s.hide u)) := by
  cases i with
  | ret ign => exact execRet_blind hu ign
  | call nnn => exact execCall_blind hu nnn
  | rnd x kk => exact ⟨_, { u with draws := u.draws + 1 }, rfl, rfl, hu, id, id, congrArg (· + 1)⟩
  | ldStVx x => exact ⟨_, { u with st := s.readV x }, rfl, rfl, hu, id, fun _ => rfl, id⟩
  | ldB | ldMemVx | drw => exact commit_blind hu _ fun _ _ => ⟨rfl, hu, id, id, id⟩
  | ldVxMem x =>
    refine commit_blind hu _ fun bs _ => ⟨s.writeRun_hide u 0 bs, ?_⟩
    rw [State.writeRun_sameButRegs]
    exact ⟨hu, id, id, id⟩
  | skp | sknp => exact commit_blind hu _ fun _ _ => State.skipIf_hide hu _
  | seImm | sneImm | seReg | sneReg => exact State.skipIf_blind hu _
  | ldVxK x =>
    have hkey : (s.hide u).firstKey = s.firstKey := rfl
    simp only [execWith, execLdVxK, hkey]
    cases s.firstKey <;> exact ⟨_, u, rfl, rfl, hu, id, id, id⟩
  | _ => exact ⟨_, u, rfl, rfl, hu, id, id, id⟩

/-! ## The step -/

/-- A Cycle whose fetch fails latches the fault with the word 0 (60_exceptions.md R221). -/
theorem cycle_fetch_error {c : Config} {run : Instr → State → Host.Outcome State Fault Refusal} {s : State} {e : Trap}
    (hf : s.fault = false) (he : fetch c s = .error e) : cycle c run s = .next (s.takeFault s.pc 0 e) := by
  simp [cycle, hf, he]

/-- The timer phase counts a replaced ST down as it counts ST down. -/
theorem Carries.finish {s t : State} {u u' : Hidden} (h : Carries s t u u') :
    ∃ u'', (t.hide u').finish = t.finish.hide u'' ∧ Carries s t.finish u u'' := by
  cases hf : t.fault with
  | true =>
    have hf' : (t.hide u').fault = true := hf
    rw [State.finish_of_fault hf, State.finish_of_fault hf']
    exact ⟨u', rfl, h⟩
  | false =>
    have hf' : (t.hide u').fault = false := hf
    rw [State.finish_of_ok hf, State.finish_of_ok hf']
    exact ⟨{ u' with st := countDown u'.st }, rfl, h.below, h.stack, fun hst => congrArg countDown (h.st hst), h.draws⟩

/-- No step reads ST, the count of draws or an entry at or above SP. -/
theorem stepWith_blind (c : Config) (r : Byte) {s : State} {u : Hidden} (hu : AgreeBelow s.sp u.stack s.stack) :
    Blind s u (stepWith c r s) (stepWith c r (s.hide u)) := by
  have hfetch : fetch c (s.hide u) = fetch c s := fetch_congr c rfl rfl
  cases hf : s.fault with
  | true => exact ⟨s, u, cycle_faulted hf, cycle_faulted hf, hu, id, id, id⟩
  | false =>
    cases hw : fetch c s with
    | error e => exact ⟨_, u, cycle_fetch_error hf hw, cycle_fetch_error hf (hfetch.trans hw), hu, id, id, id⟩
    | ok w =>
      obtain ⟨t, u', ht, ht', hcarries⟩ := execWith_blind c r (decodeWord w) (s := s.advance) hu
      obtain ⟨u'', heq, hbelow, hstack, hst, hdraws⟩ := hcarries.finish
      refine ⟨t.finish, u'', cycle_fetched hf hw ht, ?_, hbelow, hstack, hst, hdraws⟩
      rw [← heq]
      exact cycle_fetched (s := s.hide u) hf (hfetch.trans hw) ht'

/-- The step beside a given one. -/
theorem stepWith_hide {c : Config} {r : Byte} {s t : State} (h : stepWith c r s = .next t) {u : Hidden}
    (hu : AgreeBelow s.sp u.stack s.stack) :
    ∃ u', stepWith c r (s.hide u) = .next (t.hide u') ∧ Carries s t u u' := by
  obtain ⟨t', u', ht, ht', hcarries⟩ := stepWith_blind c r hu
  obtain rfl : t = t' := by rw [h] at ht; cases ht; rfl
  exact ⟨u', ht', hcarries⟩

/-- Settles O27: only ST is replaced, so the stack and the count of draws come out as they were. -/
theorem soundTimerUnobserved : Obligations.SoundTimerUnobserved := by
  unfold Obligations.SoundTimerUnobserved
  intro c r s t b h
  obtain ⟨⟨stk', b', n'⟩, hstep, -, hstack, -, hdraws⟩ :=
    stepWith_hide h (u := ⟨s.stack, b, s.draws⟩) fun _ _ => rfl
  obtain rfl : stk' = t.stack := hstack rfl
  obtain rfl : n' = t.draws := hdraws rfl
  exact ⟨b', hstep⟩

/-- Settles O28: only the stack is replaced, so ST and the count of draws come out as they were. -/
theorem stackAboveSpUnobserved : Obligations.StackAboveSpUnobserved := by
  unfold Obligations.StackAboveSpUnobserved
  intro c r s t stk hstk h
  obtain ⟨⟨stk', b', n'⟩, hstep, hbelow, -, hst, hdraws⟩ := stepWith_hide h (u := ⟨stk, s.st, s.draws⟩) hstk
  obtain rfl : b' = t.st := hst rfl
  obtain rfl : n' = t.draws := hdraws rfl
  exact ⟨stk', hstep, hbelow⟩

/-- The step on the state vector is the block's part of `stepWith`, whatever count of draws stands beside the block. -/
theorem Block.step_of_stepWith {c : Config} {r : Byte} {s t : State} (h : stepWith c r s = .next t) :
    Block.step c r s.toBlock = .next t.toBlock := by
  obtain ⟨⟨stk', b', n'⟩, hstep, -, hstack, hst, -⟩ :=
    stepWith_hide h (u := ⟨s.stack, s.st, 0⟩) fun _ _ => rfl
  obtain rfl : stk' = t.stack := hstack rfl
  obtain rfl : b' = t.st := hst rfl
  exact Block.step_next (b := s.toBlock) (t := t.hide ⟨t.stack, t.st, n'⟩) hstep

/-- Settles O60: every step ends, and the block's part of its answer does not depend on the count of draws. -/
theorem stateVectorComplete : Obligations.StateVectorComplete := by
  refine ⟨fun c r s => ?_, fun s => ?_⟩
  · obtain ⟨t, ht⟩ := stepWith_ends c r s
    exact ⟨t, ht, Block.step_of_stepWith ht⟩
  · obtain ⟨t, ht⟩ := stepWith_ends defaults (Config.randomByte s.draws) s
    exact ⟨t, (step_eq_stepWith s).trans ht, Block.step_of_stepWith ht⟩

end Sys2Proof.Machine
end

section
/-! Memory (20_memory.md R50 to R61): the invariant over the host's step, who writes memory, and that a stored word is
fetched where it was stored. -/

namespace Sys2Proof.Machine

/-- Settles O19: the host's step is the parametric step at the defaults, which keeps the block well formed. -/
theorem stepKeepsWellFormed : Obligations.StepKeepsWellFormed := by
  unfold Obligations.StepKeepsWellFormed
  intro s t hs h
  rw [step_eq_stepWith] at h
  exact stepWith_wf hs h

/-- Settles O22: what an execute phase does to memory. -/
theorem memoryWriters : Obligations.MemoryWriters := by
  unfold Obligations.MemoryWriters
  intro c r s t h hne
  obtain ⟨w, u, hw, hu, hne⟩ := stepWith_changes (fun s : State => s.mem) {} h hne
  obtain ⟨hmem, -⟩ := execWith_effects hu
  obtain ⟨hstore, -⟩ := hmem.resolve_left hne
  exact ⟨w, hw, hstore⟩

/-- A stored register run leaves V[k] at `Addr(a + k)`: sixteen bytes are too few for one to overwrite another. -/
theorem read_of_regRun_stored {c : Config} {s : State} {x : Nibble} {m : Memory} {a : Nat}
    (h : memWriteRun c s.mem a (s.regRun x) = .ok m) {k p : Nat} (hk : k ≤ x.toNat) (hp : addr c (a + k) = .ok p) :
    Memory.read c m p = s.readV (BitVec.ofNat 4 k) := by
  have hx : x.toNat < 16 := x.isLt
  have hlen : (s.regRun x).length ≤ memSize := by rw [State.regRun_length]; unfold memSize; omega
  have hk' : k < (s.regRun x).length := by rw [State.regRun_length]; omega
  rw [memWriteRun_stored h hlen k hk' p hp, State.regRun_getElem]

/-- Settles O50: under wrap the store completes, and the fetch reads its first two bytes at the addresses they went to. -/
theorem storedWordIsFetched : Obligations.StoredWordIsFetched := by
  unfold Obligations.StoredWordIsFetched
  intro x s hx
  obtain ⟨m, hm⟩ := memWriteRun_wrap (c := defaults) rfl s.mem s.i.toNat (s.regRun x)
  have hexec : exec (.ldMemVx x) s = .next (s.setMem m) := by
    simp only [exec, execLdMemVx, ldMemVxWith, hm, Except.map, commit_ok]
  refine ⟨s.setMem m, hexec, fun u hmem hpc => ?_⟩
  have hbyte : ∀ k ≤ x.toNat, u.byteAt defaults ((u.pc.toNat + k) % memSize) = s.readV (BitVec.ofNat 4 k) :=
    fun k hk => by
      rw [Block.byteAt, hmem, hpc]
      exact read_of_regRun_stored hm hk (addr_defaults _)
  have hhi : u.byteAt defaults (u.pc.toNat % memSize) = s.readV 0 := hbyte 0 (Nat.zero_le _)
  have hlo : u.byteAt defaults ((u.pc.toNat + 1) % memSize) = s.readV 1 := hbyte 1 hx
  rw [fetch_defaults, hhi, hlo, wordOfBytes]

end Sys2Proof.Machine
end

section
/-! Encoding (30_encoding.md R70 to R81): the decoder and the encoder invert each other, and the decoder's kind is that of
the opcode table's row. What a word is read as is said family by family, with the second-level key where R75 to R78 have
one. -/

namespace Sys2Proof

open Laws
open Laws.EncodesRow (rowMask rowMatch)

/-! ## A word laid out again from its fields (30_encoding.md R72), the family and a key of it known -/

section Layouts
variable {w : Word} {f : Nibble}

theorem addr_eq_word (hf : famOf w = f) : f ++ nnnOf w = w := by
  rw [← hf, ← word_eq_addr]

theorem xk_eq_word {k : Byte} (hf : famOf w = f) (hk : kkOf w = k) : f ++ xOf w ++ k = w := by
  rw [← hf, ← hk, ← word_eq_xk]

theorem xyn_eq_word {n : Nibble} (hf : famOf w = f) (hn : nOf w = n) : f ++ xOf w ++ yOf w ++ n = w := by
  rw [← hf, ← hn, ← word_eq_xyn]

theorem mid_eq_word {n : Nibble} (hf : famOf w = f) (hn : nOf w = n) : f ++ midOf w ++ n = w := by
  rw [← hf, ← hn, ← word_eq_mid]

end Layouts

/-! ## Every word is read faithfully -/

/-- Instruction i is a faithful reading of the word w: admitted, and with every bit of w in it. -/
def Instr.Reads (i : Instr) (w : Word) : Prop := i.wf = true ∧ encode i = w

/-- A no-op keeps its whole word. -/
theorem nop_reads {w : Word} (h : isNoopWord w = true) : (Instr.nop w).Reads w := ⟨h, rfl⟩

theorem decode0_reads {w : Word} (hf : famOf w = 0x0#4) : (decode0 w).Reads w := by
  unfold decode0
  split
  next hn => exact ⟨rfl, mid_eq_word hf hn⟩
  next hn => exact ⟨rfl, mid_eq_word hf hn⟩
  next h0 hE => exact nop_reads (by simpa [isNoopWord, hf] using ⟨h0, hE⟩)

theorem decode8_reads {w : Word} (hf : famOf w = 0x8#4) : (decode8 w).Reads w := by
  unfold decode8
  split
  case h_10 => exact nop_reads (by simp_all [isNoopWord])
  all_goals exact ⟨rfl, xyn_eq_word hf ‹_›⟩

theorem decodeE_reads {w : Word} (hf : famOf w = 0xE#4) : (decodeE w).Reads w := by
  unfold decodeE
  split
  next hn => exact ⟨rfl, xyn_eq_word hf hn⟩
  next hn => exact ⟨rfl, xyn_eq_word hf hn⟩
  next hE h1 => exact nop_reads (by simpa [isNoopWord, hf] using ⟨h1, hE⟩)

theorem decodeF_reads {w : Word} (hf : famOf w = 0xF#4) : (decodeF w).Reads w := by
  unfold decodeF
  split
  case h_10 => exact nop_reads (by simp_all [isNoopWord])
  all_goals exact ⟨rfl, xk_eq_word hf ‹_›⟩

/-- Every word is read faithfully. -/
theorem decodeWord_reads (w : Word) : (decodeWord w).Reads w := by
  unfold decodeWord
  split
  next hf => exact decode0_reads hf
  next hf => exact ⟨rfl, addr_eq_word hf⟩
  next hf => exact ⟨rfl, addr_eq_word hf⟩
  next hf => exact ⟨rfl, xk_eq_word hf rfl⟩
  next hf => exact ⟨rfl, xk_eq_word hf rfl⟩
  next hf => exact ⟨rfl, xyn_eq_word hf rfl⟩
  next hf => exact ⟨rfl, xk_eq_word hf rfl⟩
  next hf => exact ⟨rfl, xk_eq_word hf rfl⟩
  next hf => exact decode8_reads hf
  next hf => exact ⟨rfl, xyn_eq_word hf rfl⟩
  next hf => exact ⟨rfl, addr_eq_word hf⟩
  next hf => exact ⟨rfl, addr_eq_word hf⟩
  next hf => exact ⟨rfl, xk_eq_word hf rfl⟩
  next hf => exact ⟨rfl, xyn_eq_word hf rfl⟩
  next hf => exact decodeE_reads hf
  next => exact decodeF_reads (by simp only [imp_false] at *; bv_omega)

/-- Settles O2: the decoder's reading of a word is faithful. -/
theorem encodeOfDecode : Obligations.EncodeOfDecode := decodeWord_reads

/-! ## Every instruction is read back -/

/-- A word of the no-op space is read as the no-op of that word (30_encoding.md R80). -/
theorem decodeWord_of_isNoopWord {w : Word} (h : isNoopWord w = true) : decodeWord w = .nop w := by
  unfold isNoopWord at h
  split at h
  next hf => simp_all [decodeWord, decode0]
  next hf => simp_all [decodeWord, decode8]
  next hf => simp_all [decodeWord, decodeE]
  next hf => simp_all [decodeWord, decodeF]
  next => cases h

theorem decodeWord_encode {i : Instr} (h : i.wf = true) : decodeWord (encode i) = i := by
  cases i with
  | nop w => exact decodeWord_of_isNoopWord h
  | _ => simp [encode, decodeWord, decode0, decode8, decodeE, decodeF]

/-- Settles O1: the two bytes are those of the encoding, which is read back. -/
theorem decodeOfEncode : Obligations.DecodeOfEncode := by
  unfold Obligations.DecodeOfEncode
  intro i rest h
  rw [encodeBytes, decode_bytesOfWord, decodeWord_encode h]

/-! ## The opcode table (30_encoding.md R81) -/

/-- The bits the dispatch of a word of family f looks at: the family, and the second-level key of R75 to R78. -/
def dispatchMask (f : Nibble) : Word :=
  match f with
  | 0x0#4 | 0x8#4 | 0xE#4 => 0xF00F
  | 0xF#4 => 0xF0FF
  | _ => 0xF000

theorem famOf_dispatchMask (w : Word) (f : Nibble) : famOf (w &&& dispatchMask f) = famOf w := by
  unfold dispatchMask
  split
  case h_4 => rw [EncodesRow.famK_row, famOf_xk]
  case h_5 => rw [EncodesRow.fam_row, famOf_addr]
  all_goals rw [EncodesRow.famN_row, famOf_mid]

/-- The second-level key n is among the bits of the mask 0xF00F. -/
theorem nOf_mask (w : Word) : nOf (w &&& 0xF00F) = nOf w := by
  rw [EncodesRow.famN_row, nOf_mid]

/-- The second-level key kk is among the bits of the mask 0xF0FF. -/
theorem kkOf_mask (w : Word) : kkOf (w &&& 0xF0FF) = kkOf w := by
  rw [EncodesRow.famK_row, kkOf_xk]

/-- The kind of a word is that of its dispatch bits: no other bit decides it. -/
theorem kindNumber_dispatchMask (w : Word) :
    kindNumber (decodeWord (w &&& dispatchMask (famOf w))) = kindNumber (decodeWord w) := by
  unfold decodeWord
  rw [famOf_dispatchMask]
  split
  case h_1 hf => simp only [hf, dispatchMask, decode0, nOf_mask]; split <;> rfl
  case h_9 hf => simp only [hf, dispatchMask, decode8, nOf_mask]; split <;> rfl
  case h_15 hf => simp only [hf, dispatchMask, decodeE, nOf_mask]; split <;> rfl
  case h_16 =>
    have hf : famOf w = 0xF#4 := by simp only [imp_false] at *; bv_omega
    simp only [hf, dispatchMask, decodeF, kkOf_mask]; split <;> rfl
  all_goals rfl

/-- Each row's mask is that of its family's dispatch, and its match is a word of its kind. -/
theorem opcodeRows_dispatch :
    ∀ r ∈ opcodeRows, r.2.1 = dispatchMask (famOf r.1) ∧ kindNumber (decodeWord r.1) = r.2.2 := by decide

/-- A word of a row is of the row's kind: its dispatch bits are the row's match. -/
theorem kindNumber_of_row {w : Word} {r : Word × Word × Nat} (hr : r ∈ opcodeRows) (h : w &&& r.2.1 = r.1) :
    kindNumber (decodeWord w) = r.2.2 := by
  obtain ⟨hmask, hkind⟩ := opcodeRows_dispatch r hr
  have hfam : famOf r.1 = famOf w := by rw [← h, hmask, famOf_dispatchMask]
  rw [hfam] at hmask
  rw [← kindNumber_dispatchMask, ← hmask, h, hkind]

/-- Every instruction, if well formed, encodes to a word of its own row (30_encoding.md R74 to R80). -/
theorem encodesRow : ∀ i : Instr, EncodesRow.Statement i
  | .nop w => EncodesRow.nop w
  | .cls ign => EncodesRow.cls ign
  | .ret ign => EncodesRow.ret ign
  | .jp nnn => EncodesRow.jp nnn
  | .call nnn => EncodesRow.call nnn
  | .seImm x kk => EncodesRow.seImm x kk
  | .sneImm x kk => EncodesRow.sneImm x kk
  | .seReg x y ign => EncodesRow.seReg x y ign
  | .ldImm x kk => EncodesRow.ldImm x kk
  | .addImm x kk => EncodesRow.addImm x kk
  | .ldReg x y => EncodesRow.ldReg x y
  | .orReg x y => EncodesRow.orReg x y
  | .andReg x y => EncodesRow.andReg x y
  | .xorReg x y => EncodesRow.xorReg x y
  | .addReg x y => EncodesRow.addReg x y
  | .sub x y => EncodesRow.sub x y
  | .shr x ign => EncodesRow.shr x ign
  | .subn x y => EncodesRow.subn x y
  | .shl x ign => EncodesRow.shl x ign
  | .sneReg x y ign => EncodesRow.sneReg x y ign
  | .ldI nnn => EncodesRow.ldI nnn
  | .jpV0 nnn => EncodesRow.jpV0 nnn
  | .rnd x kk => EncodesRow.rnd x kk
  | .drw x y n => EncodesRow.drw x y n
  | .skp x ign => EncodesRow.skp x ign
  | .sknp x ign => EncodesRow.sknp x ign
  | .ldVxDt x => EncodesRow.ldVxDt x
  | .ldVxK x => EncodesRow.ldVxK x
  | .ldDtVx x => EncodesRow.ldDtVx x
  | .ldStVx x => EncodesRow.ldStVx x
  | .addI x => EncodesRow.addI x
  | .ldF x => EncodesRow.ldF x
  | .ldB x => EncodesRow.ldB x
  | .ldMemVx x => EncodesRow.ldMemVx x
  | .ldVxMem x => EncodesRow.ldVxMem x

/-- Every instruction but the no-op has a row, and the rows stand in the order of the kinds. -/
theorem row_mem_opcodeRows {i : Instr} (h : kindNumber i ≠ 0) : (rowMatch i, rowMask i, kindNumber i) ∈ opcodeRows := by
  refine List.mem_of_getElem? (i := kindNumber i - 1) ?_
  cases i with
  | nop w => exact absurd rfl h
  | _ => rfl

/-- A word of the no-op kind is read as the no-op of the whole word. -/
theorem decodeWord_eq_nop {w : Word} (h : kindNumber (decodeWord w) = 0) : decodeWord w = .nop w := by
  obtain ⟨hwf, henc⟩ := decodeWord_reads w
  apply decodeWord_of_isNoopWord
  rw [← henc]
  exact (encodesRow _ hwf).2 h

/-- Settles O3: a row decides the kind, and a word that is no no-op is in the row of its instruction. -/
theorem decodeFollowsOpcodeTable : Obligations.DecodeFollowsOpcodeTable := by
  unfold Obligations.DecodeFollowsOpcodeTable
  refine fun w => ⟨fun r hr h => kindNumber_of_row hr h, fun hnone => decodeWord_eq_nop ?_⟩
  by_contra hkind
  obtain ⟨hwf, henc⟩ := decodeWord_reads w
  obtain ⟨hrow, -⟩ := encodesRow _ hwf
  rw [henc] at hrow
  exact hnone _ (row_mem_opcodeRows hkind) hrow

/-- Settles O4: a word of two rows would be of two kinds, and no two rows have one kind. -/
theorem opcodeRowsDisjoint : Obligations.OpcodeRowsDisjoint := by
  unfold Obligations.OpcodeRowsDisjoint
  have hkinds : opcodeRows.Pairwise (fun r q => r.2.2 ≠ q.2.2) := by decide
  refine hkinds.imp_of_mem fun hr hq hne w hw => hne ?_
  rw [← kindNumber_of_row hr hw.1, kindNumber_of_row hq hw.2]

/-- Settles O5: each of the twelve by running the decoder on its bytes. -/
theorem sampleWordsDecode : Obligations.SampleWordsDecode :=
  ⟨rfl, rfl, rfl, rfl, rfl, rfl, rfl, rfl, rfl, rfl, rfl, rfl⟩

end Sys2Proof

namespace Sys2Proof.Machine

/-- RET with a non-empty stack completes, so that no fault records its ignored bits. -/
theorem execRet_ign {s : State} (hs : s.sp ≠ 0) (p q : Byte) : execRet p s = execRet q s := by
  unfold execRet
  cases hpop : s.pop with
  | error e => exact absurd (State.pop_error hpop).1 hs
  | ok r => rfl

/-- Settles O6: only a fault records the ignored bits, and at the defaults none of these forms but RET can raise one. -/
theorem ignoredBitsIgnored : Obligations.IgnoredBitsIgnored := by
  unfold Obligations.IgnoredBitsIgnored
  intro x y a b p q s
  refine ⟨rfl, fun hs => execRet_ign hs p q, rfl, rfl, rfl, rfl, ?_, ?_⟩
  · simp only [exec, execSkp, skpWith, keyIdx_defaults, Except.map, commit_ok]
  · simp only [exec, execSknp, sknpWith, keyIdx_defaults, Except.map, commit_ok]

end Sys2Proof.Machine
end

section
/-! The cycle (40_cycle_dispatch.md R90 to R100): what the fetch reads and which address it reports, the step as the execute
phase of the fetched word with the timer phase after it, and what each timer holds after the handler. -/

namespace Sys2Proof.Machine

/-! ## The fetch (40_cycle_dispatch.md R91) -/

theorem addr_fault_of_lt {c : Config} (hc : c.oob = .fault) {a : Nat} (ha : a < memSize) : addr c a = .ok a := by
  rw [addr_fault hc, if_pos ha]

theorem addr_fault_of_le {c : Config} (hc : c.oob = .fault) {a : Nat} (ha : memSize ≤ a) :
    addr c a = .error { cause := .addrRange, info := BitVec.ofNat 16 a } := by
  rw [addr_fault hc, if_neg (Nat.not_lt.mpr ha)]

/-- The fetch completes when both addresses are given. -/
theorem fetch_of_addr {c : Config} {s : State} {a b : Nat} (ha : addr c s.pc.toNat = .ok a)
    (hb : addr c (s.pc.toNat + 1) = .ok b) : fetch c s = .ok (wordOfBytes (s.byteAt c a) (s.byteAt c b)) := by
  simp only [fetch, memRead, ha, hb, Block.byteAt]

/-- The fetch fails with the first address refused, PC before PC + 1 (60_exceptions.md R228). -/
theorem fetch_of_addr_error {c : Config} {s : State} {e : Trap}
    (h : addr c s.pc.toNat = .error e ∨ (∃ a, addr c s.pc.toNat = .ok a) ∧ addr c (s.pc.toNat + 1) = .error e) :
    fetch c s = .error e := by
  rcases h with ha | ⟨⟨a, ha⟩, hb⟩
  · simp only [fetch, memRead, ha]
  · simp only [fetch, memRead, ha, hb]

/-- Under the policy fault the first address out of range is PC, or 4096 when PC is the last one in range. -/
theorem fetch_out_of_range {c : Config} (hc : c.oob = .fault) {s : State} (hpc : memSize ≤ s.pc.toNat + 1) :
    fetch c s = .error { cause := .addrRange, info := BitVec.ofNat 16 (max s.pc.toNat memSize) } := by
  refine fetch_of_addr_error ?_
  rcases Nat.lt_or_ge s.pc.toNat memSize with hlt | hge
  · have hmax : max s.pc.toNat memSize = s.pc.toNat + 1 := by omega
    rw [hmax]
    exact Or.inr ⟨⟨_, addr_fault_of_lt hc hlt⟩, addr_fault_of_le hc hpc⟩
  · rw [max_eq_left hge]
    exact Or.inl (addr_fault_of_le hc hge)

/-- Settles O9: both addresses given under wrap and inside memory; outside, the fetch fails and the step latches it. -/
theorem fetchBigEndian : Obligations.FetchBigEndian := by
  unfold Obligations.FetchBigEndian
  refine ⟨fun c s hc => ?_, fun c s hc hpc => ?_, fun c r s hf hc hpc => ?_⟩
  · exact fetch_of_addr (addr_wrap hc _) (addr_wrap hc _)
  · exact fetch_of_addr (addr_fault_of_lt hc (Nat.lt_of_succ_lt hpc)) (addr_fault_of_lt hc hpc)
  · exact cycle_fetch_error hf (fetch_out_of_range hc hpc)

/-! ## The step as the execute phase of the fetched word (40_cycle_dispatch.md R90, R92) -/

/-- A step whose fetch completes ends as the execute phase of the fetched word does, with the timer phase after it. -/
theorem stepWith_fetched {c : Config} {r : Byte} {s t : State} {w : Word} (hf : s.fault = false)
    (hw : fetch c s = .ok w) (h : stepWith c r s = .next t) :
    ∃ u, execWith c r (decodeWord w) s.advance = .next u ∧ t = u.finish := by
  obtain ⟨u, hu, -⟩ := execWith_endsWell c r (decodeWord w) s.advance
  exact ⟨u, hu, Host.Outcome.next.inj (h.symm.trans (cycle_fetched hf hw hu))⟩

/-- Every execute phase answers a next state. -/
theorem exec_ends (i : Instr) (s : State) : ∃ t, exec i s = .next t := by
  obtain ⟨t, ht, -⟩ := execWith_endsWell defaults (Config.randomByte s.draws) i s
  exact ⟨t, (exec_eq_execWith i s).trans ht⟩

/-- Settles O7: at the defaults the fetch completes, and the timer phase is the countdown of both timers. -/
theorem stepRunsDecoded : Obligations.StepRunsDecoded := by
  unfold Obligations.StepRunsDecoded
  intro s i hf hdecode
  obtain ⟨u, hu⟩ : ∃ u, exec i { s with pc := s.pc + 2 } = .next u := exec_ends i s.advance
  rw [hu]
  cases hdecode
  exact cycle_fetched hf (fetch_defaults s) hu

/-- Settles O10: no execute phase stops the machine, so no step does. -/
theorem everyStepEnds : Obligations.EveryStepEnds := by
  refine ⟨fun s => ?_, stepWith_ends⟩
  rw [step_eq_stepWith]
  exact stepWith_ends _ _ s

/-- Settles O16: the word is read as the no-op, whose step is the advance and the timer phase. -/
theorem nopAdvancesOnly : Obligations.NopAdvancesOnly := by
  unfold Obligations.NopAdvancesOnly
  refine ⟨fun w s => rfl, fun c r s w hf hw hnop => ?_⟩
  have hrun : execWith c r (decodeWord w) s.advance = .next s.advance := by
    rw [decodeWord_of_isNoopWord hnop]; rfl
  have hadv : s.advance.fault = false := hf
  have hstep : stepWith c r s = .next s.advance.finish := cycle_fetched hf hw hrun
  rw [hstep, State.finish_of_ok hadv]
  rfl

/-! ## The timers (40_cycle_dispatch.md R96) -/

/-- What DT holds after the handler of i, entered in s: V[x] for LD DT, Vx, else what it held (44_timers_input.md R181). -/
def dtAfter (i : Instr) (s : State) : Byte :=
  match i with
  | .ldDtVx x => s.readV x
  | _ => s.dt

/-- What ST holds after the handler of i, entered in s: V[x] for LD ST, Vx, else what it held (44_timers_input.md R182). -/
def stAfter (i : Instr) (s : State) : Byte :=
  match i with
  | .ldStVx x => s.readV x
  | _ => s.st

/-- The timers of t are those of s. -/
abbrev State.SameTimers (s t : State) : Prop := t.dt = s.dt ∧ t.st = s.st

/-- Committing leaves the timers alone when the committed state does: raising a fault writes neither. -/
theorem commit_sameTimers {α : Type} {i : Instr} {s t : State} {r : Except Trap α} {f : α → State}
    (h : commit i s (r.map f) = .next t) (hf : ∀ a, r = .ok a → s.SameTimers (f a)) : s.SameTimers t := by
  rcases commit_map_next h with ⟨a, ha, rfl⟩ | ⟨e, -, rfl⟩
  · exact hf a ha
  · exact ⟨rfl, rfl⟩

theorem State.skipIf_sameTimers (s : State) (b : Bool) : s.SameTimers (s.skipIf b) := by
  rw [State.skipIf_eq_setPc]; exact ⟨rfl, rfl⟩

/-- What every execute phase does to the timers, faults included. -/
theorem execWith_timers {c : Config} {r : Byte} {i : Instr} {s t : State} (h : execWith c r i s = .next t) :
    t.dt = dtAfter i s ∧ t.st = stAfter i s := by
  cases i with
  | ret ign =>
    refine commit_sameTimers h fun p hp => ?_
    obtain ⟨-, -, hs⟩ := State.pop_ok hp
    rw [hs]; exact ⟨rfl, rfl⟩
  | call nnn =>
    refine commit_sameTimers h fun u hu => ?_
    obtain ⟨_, hs⟩ := State.push_ok hu
    rw [hs]; exact ⟨rfl, rfl⟩
  | ldVxMem x =>
    refine commit_sameTimers h fun bs _ => ?_
    rw [State.writeRun_sameButRegs]; exact ⟨rfl, rfl⟩
  | ldB | ldMemVx | drw => exact commit_sameTimers h fun _ _ => ⟨rfl, rfl⟩
  | skp | sknp => exact commit_sameTimers h fun _ _ => s.skipIf_sameTimers _
  | seImm | sneImm | seReg | sneReg => cases h; exact s.skipIf_sameTimers _
  | ldVxK x =>
    simp only [execWith, execLdVxK] at h
    split at h <;> cases h <;> exact ⟨rfl, rfl⟩
  | _ => cases h; exact ⟨rfl, rfl⟩

/-- A timer's decrement is the subtraction of 1 that stops at 0. -/
theorem countDown_toNat (b : Byte) : (countDown b).toNat = b.toNat - 1 := by
  unfold countDown
  split
  next h => rw [h]; rfl
  next h => bv_omega

/-- After a step that raises no fault each timer is one below what the handler left in it. -/
theorem stepWith_timers {c : Config} {r : Byte} {s t : State} {w : Word} (hf : s.fault = false)
    (hw : fetch c s = .ok w) (h : stepWith c r s = .next t) (ht : t.fault = false) :
    t.dt = countDown (dtAfter (decodeWord w) s.advance) ∧ t.st = countDown (stAfter (decodeWord w) s.advance) := by
  obtain ⟨u, hu, rfl⟩ := stepWith_fetched hf hw h
  rw [State.finish_fault] at ht
  obtain ⟨hdt, hst⟩ := execWith_timers hu
  rw [State.finish_of_ok ht, State.tick_dt, State.tick_st, hdt, hst]
  exact ⟨rfl, rfl⟩

/-- Settles O15: the advance writes neither register nor timer, so the handler's values are those of the state before it. -/
theorem timersCountDown : Obligations.TimersCountDown := by
  unfold Obligations.TimersCountDown
  intro c r s t w hf hw h ht
  obtain ⟨hdt, hst⟩ := stepWith_timers hf hw h ht
  rw [hdt, hst, countDown_toNat, countDown_toNat]
  cases decodeWord w <;> exact ⟨rfl, rfl⟩

end Sys2Proof.Machine
end

section
/-! Control flow (41_control_flow.md R110 to R119): what a pop and a push answer on either side of their bound, and from it
RET and CALL; the two jumps; the skips, whose PC is said once for equality and once for inequality. -/

namespace Sys2Proof.Machine

/-! ## Targets (30_encoding.md R73) -/

/-- Zero-extension keeps the value. -/
@[simp] theorem zext16_toNat (nnn : Addr12) : (zext16 nnn).toNat = nnn.toNat :=
  BitVec.toNat_setWidth_of_le (by decide)

@[simp] theorem zextByte_toNat (b : Byte) : (zextByte b).toNat = b.toNat :=
  BitVec.toNat_setWidth_of_le (by decide)

/-! ## RET (41_control_flow.md R111) -/

theorem State.pop_of_sp_eq_zero {s : State} (hs : s.sp = 0) : s.pop = .error { cause := .stackUnderflow, info := 0 } :=
  dif_pos (congrArg Fin.val hs)

theorem State.pop_of_sp_ne_zero {s : State} (hs : s.sp ≠ 0) :
    s.pop = .ok (s.stack[s.sp.val - 1]'(by omega), s.setStack s.stack ⟨s.sp.val - 1, by omega⟩) :=
  dif_neg (Fin.val_ne_of_ne hs)

theorem exec_ret_of_sp_ne_zero (ign : Byte) {s : State} (hs : s.sp ≠ 0) :
    exec (.ret ign) s =
      .next ((s.setStack s.stack ⟨s.sp.val - 1, by omega⟩).setPc (s.stack[s.sp.val - 1]'(by omega))) := by
  simp only [exec, execRet, State.pop_of_sp_ne_zero hs, Except.map, commit_ok]

/-- Settles O29: on either side of SP = 0 RET commits what the pop answers. -/
theorem retPops : Obligations.RetPops := by
  unfold Obligations.RetPops
  intro ign s
  refine ⟨decodeWord_encode (i := .ret ign) rfl, fun hs => ?_, fun hs => ?_⟩
  · exact ⟨_, exec_ret_of_sp_ne_zero ign hs, Vector.getElem?_eq_getElem _, rfl, rfl⟩
  · simp only [exec, execRet, State.pop_of_sp_eq_zero hs, Except.map, commit_error, State.takeFault]

/-! ## CALL (41_control_flow.md R113) -/

theorem State.push_of_sp_eq_sixteen {s : State} (hs : s.sp = 16) (w : Word) :
    s.push w = .error { cause := .stackOverflow, info := 16 } :=
  dif_neg (by rw [hs]; decide)

theorem State.push_of_sp_lt {s : State} (hs : s.sp.val < 16) (w : Word) :
    s.push w = .ok (s.setStack (s.stack.set s.sp.val w hs) ⟨s.sp.val + 1, Nat.succ_lt_succ hs⟩) :=
  dif_pos hs

theorem exec_call_of_sp_lt (nnn : Addr12) {s : State} (hs : s.sp.val < 16) :
    exec (.call nnn) s =
      .next ((s.setStack (s.stack.set s.sp.val s.pc hs) ⟨s.sp.val + 1, Nat.succ_lt_succ hs⟩).setPc (zext16 nnn)) := by
  simp only [exec, execCall, State.push_of_sp_lt hs, Except.map, commit_ok]

/-- Settles O30: on either side of SP = 16 CALL commits what the push answers. -/
theorem callPushes : Obligations.CallPushes := by
  unfold Obligations.CallPushes
  intro nnn s
  refine ⟨decodeWord_encode (i := .call nnn) rfl, fun hs => ?_, fun hs => ?_⟩
  · have hlt := Fin.val_lt_last hs
    exact ⟨_, exec_call_of_sp_lt nnn hlt, zext16_toNat nnn, rfl, Vector.getElem?_set_self hlt,
      fun j hj => Vector.getElem?_set_ne hlt hj.symm, rfl⟩
  · simp only [exec, execCall, State.push_of_sp_eq_sixteen hs, Except.map, commit_error, State.takeFault]

/-- Settles O31: RET reads back the entry CALL wrote at the old SP, and SP comes back to it. -/
theorem callThenRetReturns : Obligations.CallThenRetReturns := by
  unfold Obligations.CallThenRetReturns
  intro nnn ign p s hs
  have hlt := Fin.val_lt_last hs
  refine ⟨_, _, exec_call_of_sp_lt nnn hlt, exec_ret_of_sp_ne_zero ign (Fin.ne_of_val_ne (Nat.succ_ne_zero _)), ?_,
    fun j hj => Vector.getElem?_set_ne hlt hj.symm⟩
  have hpc : (s.stack.set s.sp.val s.pc hlt)[s.sp.val] = s.pc := Vector.getElem_set_self hlt
  exact congrArg (s.setStack (s.stack.set s.sp.val s.pc hlt) s.sp).setPc hpc

/-! ## The jumps (41_control_flow.md R112, R114) -/

/-- Settles O32: the target is the zero-extended address. -/
theorem jpLoadsTarget : Obligations.JpLoadsTarget := by
  unfold Obligations.JpLoadsTarget
  exact fun nnn s => ⟨decodeWord_encode (i := .jp nnn) rfl, _, rfl, zext16_toNat nnn, rfl⟩

/-- Settles O33: the sum of the two zero-extended operands, at the 16 bits of PC. -/
theorem jpV0LoadsSum : Obligations.JpV0LoadsSum := by
  unfold Obligations.JpV0LoadsSum
  intro nnn s
  refine ⟨decodeWord_encode (i := .jpV0 nnn) rfl, _, rfl, ?_, rfl⟩
  rw [State.setPc_pc, BitVec.toNat_add, zext16_toNat, zextByte_toNat]

/-! ## The skips (41_control_flow.md R110, R115 to R118) -/

/-- A skip changes PC alone. -/
theorem State.skipIf_frame (s : State) (b : Bool) : s.skipIf b = { s with pc := (s.skipIf b).pc } := by
  rw [State.skipIf_eq_setPc]; rfl

theorem State.skipIf_pc_toNat (s : State) (b : Bool) :
    (s.skipIf b).pc.toNat = if b then (s.pc.toNat + 2) % 65536 else s.pc.toNat := by
  cases b <;> rfl

theorem State.skipIf_beq_pc_toNat (s : State) (a b : Byte) :
    (s.skipIf (a == b)).pc.toNat = if a = b then (s.pc.toNat + 2) % 65536 else s.pc.toNat := by
  simp only [State.skipIf_pc_toNat, beq_iff_eq]

theorem State.skipIf_bne_pc_toNat (s : State) (a b : Byte) :
    (s.skipIf (a != b)).pc.toNat = if a = b then s.pc.toNat else (s.pc.toNat + 2) % 65536 := by
  simp only [State.skipIf_pc_toNat, bne_iff_ne, ne_eq, ite_not]

/-- Settles O34: SE skips on the equality of V[x] and the immediate, SNE on their inequality. -/
theorem immediateSkips : Obligations.ImmediateSkips := by
  unfold Obligations.ImmediateSkips
  intro x kk s
  exact ⟨decodeWord_encode (i := .seImm x kk) rfl, decodeWord_encode (i := .sneImm x kk) rfl,
    ⟨_, rfl, s.skipIf_frame _, s.skipIf_beq_pc_toNat _ _⟩, ⟨_, rfl, s.skipIf_frame _, s.skipIf_bne_pc_toNat _ _⟩⟩

/-- Settles O35: SE skips on the equality of V[x] and V[y], SNE on their inequality. -/
theorem registerSkips : Obligations.RegisterSkips := by
  unfold Obligations.RegisterSkips
  intro x y ign s
  exact ⟨decodeWord_encode (i := .seReg x y ign) rfl, decodeWord_encode (i := .sneReg x y ign) rfl,
    ⟨_, rfl, s.skipIf_frame _, s.skipIf_beq_pc_toNat _ _⟩, ⟨_, rfl, s.skipIf_frame _, s.skipIf_bne_pc_toNat _ _⟩⟩

end Sys2Proof.Machine
end

section
/-! The ALU (42_alu.md R130 to R143): the frame of a register write and of a flagged write, and the numbers the flags and the
results are; each instruction is then one write of its result, flagged or not. -/

namespace Sys2Proof.Machine

/-! ## Frames of the two writes -/

/-- A register write changes that register alone. -/
theorem State.writeV_sameButV (s : State) (x : Nibble) (b : Byte) : s.SameButV (s.writeV x b) x :=
  ⟨rfl, fun _ hz => s.readV_writeV_ne b hz.symm⟩

/-- A flagged write changes its destination and VF alone. -/
theorem State.writeFlagged_sameButVAndFlag (s : State) (x : Nibble) (r : Byte) (g : Bool) :
    s.SameButVAndFlag (s.writeFlagged x r g) x :=
  ⟨rfl, fun _ hx hf => s.readV_writeFlagged_ne r g hx.symm hf.symm⟩

/-- A flagged write to VF changes VF alone. -/
theorem State.writeFlagged_flagReg_sameButV (s : State) (r : Byte) (g : Bool) :
    s.SameButV (s.writeFlagged flagReg r g) flagReg :=
  ⟨rfl, fun _ hz => s.readV_writeFlagged_ne r g hz.symm hz.symm⟩

/-! ## Writes without a flag (42_alu.md R132 to R137) -/

/-- Settles O36: each move is one register write. -/
theorem registerMoves : Obligations.RegisterMoves := by
  unfold Obligations.RegisterMoves
  intro x y kk s
  exact ⟨decodeWord_encode (i := .ldImm x kk) rfl, decodeWord_encode (i := .ldReg x y) rfl,
    ⟨_, rfl, s.readV_writeV_self x _, s.writeV_sameButV x _⟩, ⟨_, rfl, s.readV_writeV_self x _, s.writeV_sameButV x _⟩⟩

/-- Settles O37: one register write of the 8-bit sum. -/
theorem addImmediateNoFlag : Obligations.AddImmediateNoFlag := by
  unfold Obligations.AddImmediateNoFlag
  intro x kk s
  refine ⟨decodeWord_encode (i := .addImm x kk) rfl, _, rfl, ?_, s.writeV_sameButV x _⟩
  rw [State.readV_writeV_self, BitVec.toNat_add]

/-- Settles O38: one register write of the bitwise combination, whose bits are the combined bits. -/
theorem bitwiseLogicNoFlag : Obligations.BitwiseLogicNoFlag := by
  unfold Obligations.BitwiseLogicNoFlag
  intro x y s
  refine ⟨decodeWord_encode (i := .orReg x y) rfl, decodeWord_encode (i := .andReg x y) rfl,
    decodeWord_encode (i := .xorReg x y) rfl, ⟨_, rfl, s.writeV_sameButV x _, fun j => ?_⟩,
    ⟨_, rfl, s.writeV_sameButV x _, fun j => ?_⟩, ⟨_, rfl, s.writeV_sameButV x _, fun j => ?_⟩⟩
  · rw [State.readV_writeV_self, BitVec.getLsbD_or]
  · rw [State.readV_writeV_self, BitVec.getLsbD_and]
  · rw [State.readV_writeV_self, BitVec.getLsbD_xor]

/-! ## The numbers of flags and results (42_alu.md R130) -/

theorem flagByte_toNat (b : Bool) : (flagByte b).toNat = b.toNat := by cases b <;> rfl

theorem flagByte_carryOut_toNat (a b : Byte) :
    (flagByte (carryOut a b)).toNat = if 255 < a.toNat + b.toNat then 1 else 0 := by
  rw [flagByte_toNat, carryOut, Bool.toNat, Bool.cond_decide]

theorem flagByte_noBorrow_toNat (a b : Byte) :
    (flagByte (noBorrow a b)).toNat = if a.toNat ≥ b.toNat then 1 else 0 := by
  rw [flagByte_toNat, noBorrow, Bool.toNat, Bool.cond_decide]

/-- A bit of a byte, as VF holds it, is the byte's binary digit. -/
theorem flagByte_getLsbD_toNat (a : Byte) (k : Nat) : (flagByte (a.getLsbD k)).toNat = a.toNat / 2 ^ k % 2 := by
  rw [flagByte_toNat, ← BitVec.testBit_toNat, Nat.toNat_testBit]

theorem flagByte_shrOut_toNat (a : Byte) : (flagByte (shrOut a)).toNat = a.toNat % 2 := by
  rw [shrOut, flagByte_getLsbD_toNat, pow_zero, Nat.div_one]

theorem flagByte_shlOut_toNat (a : Byte) : (flagByte (shlOut a)).toNat = a.toNat / 128 := by
  have ha := a.isLt
  rw [shlOut, flagByte_getLsbD_toNat]
  omega

/-- The 8-bit difference is the exact difference modulo 256. -/
theorem byte_sub_toNat (a b : Byte) : ((a - b).toNat : Int) = ((a.toNat : Int) - b.toNat) % 256 := by
  have hb := b.isLt
  rw [BitVec.toNat_sub]
  omega

/-! ## Flagged writes (42_alu.md R131, R138 to R142) -/

/-- Settles O39: the flagged write of the 8-bit sum and the carry. -/
theorem addSetsCarry : Obligations.AddSetsCarry := by
  unfold Obligations.AddSetsCarry
  intro x y s
  refine ⟨decodeWord_encode (i := .addReg x y) rfl, _, rfl, fun hx => ?_, ?_, s.writeFlagged_sameButVAndFlag x _ _⟩
  · rw [State.readV_writeFlagged_dest _ _ _ hx, BitVec.toNat_add]
  · rw [State.readV_writeFlagged_flag, flagByte_carryOut_toNat]

/-- What the flagged write of a difference and its no-borrow leaves, for SUB and SUBN alike. -/
theorem State.writeFlagged_sub (s : State) (x : Nibble) (a b : Byte) :
    (x ≠ flagReg → (((s.writeFlagged x (a - b) (noBorrow a b)).readV x).toNat : Int) = ((a.toNat : Int) - b.toNat) % 256) ∧
    ((s.writeFlagged x (a - b) (noBorrow a b)).readV flagReg).toNat = (if a.toNat ≥ b.toNat then 1 else 0) ∧
    s.SameButVAndFlag (s.writeFlagged x (a - b) (noBorrow a b)) x := by
  refine ⟨fun hx => ?_, ?_, s.writeFlagged_sameButVAndFlag x _ _⟩
  · rw [State.readV_writeFlagged_dest _ _ _ hx, byte_sub_toNat]
  · rw [State.readV_writeFlagged_flag, flagByte_noBorrow_toNat]

/-- Settles O40: SUB and SUBN are the same flagged write with the operands exchanged. -/
theorem subtractSetsNoBorrow : Obligations.SubtractSetsNoBorrow := by
  unfold Obligations.SubtractSetsNoBorrow
  intro x y s
  exact ⟨decodeWord_encode (i := .sub x y) rfl, decodeWord_encode (i := .subn x y) rfl,
    ⟨_, rfl, s.writeFlagged_sub x (s.readV x) (s.readV y)⟩, ⟨_, rfl, s.writeFlagged_sub x (s.readV y) (s.readV x)⟩⟩

/-- Settles O41: the flagged write of the shifted byte and the bit shifted out. -/
theorem shiftsSetShiftedBit : Obligations.ShiftsSetShiftedBit := by
  unfold Obligations.ShiftsSetShiftedBit
  intro x ign s
  refine ⟨decodeWord_encode (i := .shr x ign) rfl, decodeWord_encode (i := .shl x ign) rfl,
    ⟨_, rfl, fun hx => ?_, ?_, s.writeFlagged_sameButVAndFlag x _ _⟩,
    ⟨_, rfl, fun hx => ?_, ?_, s.writeFlagged_sameButVAndFlag x _ _⟩⟩
  · rw [State.readV_writeFlagged_dest _ _ _ hx, BitVec.toNat_ushiftRight, Nat.shiftRight_one]
  · rw [State.readV_writeFlagged_flag, flagByte_shrOut_toNat]
  · rw [State.readV_writeFlagged_dest _ _ _ hx, BitVec.toNat_shiftLeft, Nat.shiftLeft_eq, pow_one]
  · rw [State.readV_writeFlagged_flag, flagByte_shlOut_toNat]

/-- An instruction that is a flagged write to VF leaves the flag there, and changes nothing else. -/
theorem exec_flag_wins {i : Instr} {s : State} {r : Byte} {g : Bool}
    (h : exec i s = .next (s.writeFlagged flagReg r g)) :
    ∃ t, exec i s = .next t ∧ t.readV flagReg = (if g then 1 else 0) ∧ s.SameButV t flagReg :=
  ⟨_, h, s.readV_writeFlagged_flag flagReg r g, s.writeFlagged_flagReg_sameButV r g⟩

/-- Settles O42: each of the five instructions is a flagged write, here to VF. -/
theorem flagWinsOverResult : Obligations.FlagWinsOverResult := by
  unfold Obligations.FlagWinsOverResult
  intro y s
  simp only [List.forall_mem_cons, List.not_mem_nil, false_imp_iff, implies_true, and_true]
  exact ⟨exec_flag_wins rfl, exec_flag_wins rfl, exec_flag_wins rfl, exec_flag_wins rfl, exec_flag_wins rfl⟩

/-! ## RND (42_alu.md R143) -/

/-- What RND does with the byte r it is given. -/
theorem rndWith_effect (r : Byte) (x : Nibble) (kk : Byte) (s : State) :
    ∃ t, rndWith r x kk s = .next t ∧ t.readV x = r &&& kk ∧ (∀ z, z ≠ x → t.readV z = s.readV z) ∧
      t = { s with v := t.v, draws := s.draws + 1 } :=
  ⟨_, rfl, s.readV_writeV_self x _, (s.writeV_sameButV x _).2, rfl⟩

/-- Settles O43: `exec` runs `rndWith` on the free draw, `execWith` on the byte given. -/
theorem rndMasksDraw : Obligations.RndMasksDraw := by
  unfold Obligations.RndMasksDraw
  intro x kk s
  exact ⟨decodeWord_encode (i := .rnd x kk) rfl, rndWith_effect (Config.randomByte s.draws) x kk s,
    fun _ r => rndWith_effect r x kk s⟩

end Sys2Proof.Machine
end

section
/-! Memory transfer and the index register (43_memory_transfer.md R160 to R165): the numbers I is loaded with; when a run of
accesses from I completes and which address it reports when it does not; a committed store and a committed load, each said
once; LD B and LD [I], Vx are two such stores, LD Vx, [I] such a load. -/

namespace Sys2Proof.Machine

/-! ## The index register (43_memory_transfer.md R160, R161, R165) -/

/-- Settles O44: the address is zero-extended. -/
theorem ldILoadsAddress : Obligations.LdILoadsAddress := by
  unfold Obligations.LdILoadsAddress
  exact fun nnn s => ⟨decodeWord_encode (i := .ldI nnn) rfl, _, rfl, zext16_toNat nnn, rfl⟩

/-- Settles O45: the sum of I and the zero-extended byte, at the 16 bits of I. -/
theorem addIWrapsNoFlag : Obligations.AddIWrapsNoFlag := by
  unfold Obligations.AddIWrapsNoFlag
  intro x s
  refine ⟨decodeWord_encode (i := .addI x) rfl, _, rfl, ?_, rfl⟩
  rw [State.setI_i, BitVec.toNat_add, zextByte_toNat]

theorem glyphAddr_toNat (c : Config) (b : Byte) : (glyphAddr c b).toNat = (c.fontBase + 5 * b.toNat) % 65536 :=
  BitVec.toNat_ofNat _ _

/-- At the defaults no glyph address wraps. -/
theorem glyphAddr_defaults_toNat (b : Byte) : (glyphAddr defaults b).toNat = 0x050 + 5 * b.toNat := by
  have hb := b.isLt
  have hbase : defaults.fontBase = 0x050 := rfl
  rw [glyphAddr_toNat, hbase]
  omega

/-- Settles O46: I is the glyph address of the whole byte V[x]. -/
theorem ldFPointsAtGlyph : Obligations.LdFPointsAtGlyph := by
  unfold Obligations.LdFPointsAtGlyph
  intro x s
  exact ⟨decodeWord_encode (i := .ldF x) rfl, ⟨_, rfl, glyphAddr_defaults_toNat _, rfl⟩,
    fun c _ => ⟨_, rfl, glyphAddr_toNat c _, rfl⟩⟩

/-! ## Runs of accesses and the policy (00_scope.md R11, 60_exceptions.md R226, R228) -/

theorem not_runInRange_iff {c : Config} {s : State} {len : Nat} :
    ¬ RunInRange c s len ↔ c.oob = .fault ∧ memSize < s.i.toNat + len := by
  unfold RunInRange
  cases c.oob <;> simp

/-- At the defaults, whose policy is wrap, every run is in range. -/
theorem runInRange_defaults (s : State) (len : Nat) : RunInRange defaults s len := Or.inl rfl

/-- No address of a run in range is refused. -/
theorem addr_ne_error_of_runInRange {c : Config} {s : State} {len k : Nat} (h : RunInRange c s len) (hk : k < len)
    (e : Trap) : addr c (s.i.toNat + k) ≠ .error e := by
  intro he
  obtain ⟨hfault, hge, -⟩ := addr_error he
  exact not_runInRange_iff.mpr ⟨hfault, by omega⟩ h

theorem memWriteRun_of_runInRange {c : Config} {s : State} {bs : List Byte} (h : RunInRange c s bs.length)
    (m : Memory) : ∃ m', memWriteRun c m s.i.toNat bs = .ok m' := by
  cases hrun : memWriteRun c m s.i.toNat bs with
  | ok m' => exact ⟨m', rfl⟩
  | error e =>
    obtain ⟨k, hk, he, -⟩ := memWriteRun_error hrun
    exact absurd he (addr_ne_error_of_runInRange h hk e)

theorem memReadRun_of_runInRange {c : Config} {s : State} {len : Nat} (h : RunInRange c s len) (m : Memory) :
    ∃ bs, memReadRun c m s.i.toNat len = .ok bs := by
  cases hrun : memReadRun c m s.i.toNat len with
  | ok bs => exact ⟨bs, rfl⟩
  | error e =>
    obtain ⟨k, hk, he, -⟩ := memReadRun_error hrun
    exact absurd he (addr_ne_error_of_runInRange h hk e)

/-- The trap of a run from a on that leaves memory: its first address at or above 4096 is a itself, or 4096. -/
def runTrap (a : Nat) : Trap := { cause := .addrRange, info := BitVec.ofNat 16 (max a memSize) }

theorem runTrap_of_ge {a : Nat} (h : memSize ≤ a) : runTrap a = { cause := .addrRange, info := BitVec.ofNat 16 a } := by
  rw [runTrap, max_eq_left h]

theorem runTrap_succ {a : Nat} (h : a < memSize) : runTrap (a + 1) = runTrap a := by
  rw [runTrap, runTrap, max_eq_right h, max_eq_right h.le]

/-- Under the policy fault a write run that leaves memory fails at its first address outside. -/
theorem memWriteRun_out_of_range {c : Config} (hc : c.oob = .fault) {a : Nat} {bs : List Byte} (hpos : 0 < bs.length)
    (h : memSize < a + bs.length) (m : Memory) : memWriteRun c m a bs = .error (runTrap a) := by
  induction bs generalizing m a with
  | nil => exact absurd hpos (Nat.lt_irrefl 0)
  | cons b bs ih =>
    rw [List.length_cons] at h
    rcases Nat.lt_or_ge a memSize with hlt | hge
    · simp only [memWriteRun, memWrite, addr_fault_of_lt hc hlt]
      rw [ih (by omega) (by omega), runTrap_succ hlt]
    · simp only [memWriteRun, memWrite, addr_fault_of_le hc hge, runTrap_of_ge hge]

/-- Under the policy fault a read run that leaves memory fails at its first address outside. -/
theorem memReadRun_out_of_range {c : Config} (hc : c.oob = .fault) {a len : Nat} (hpos : 0 < len)
    (h : memSize < a + len) (m : Memory) : memReadRun c m a len = .error (runTrap a) := by
  induction len generalizing a with
  | zero => exact absurd hpos (Nat.lt_irrefl 0)
  | succ len ih =>
    rcases Nat.lt_or_ge a memSize with hlt | hge
    · simp only [memReadRun, memRead, addr_fault_of_lt hc hlt]
      rw [ih (by omega) (by omega), runTrap_succ hlt]
    · simp only [memReadRun, memRead, addr_fault_of_le hc hge, runTrap_of_ge hge]

/-! ## Stores and loads, committed -/

/-- Raising a run's trap latches ADDR_RANGE with the smallest address out of range. -/
theorem commit_runTrap (i : Instr) (s : State) :
    commit i s (.error (runTrap s.i.toNat)) = addrRangeAt s i (max s.i.toNat 4096) := rfl

/-- A store in range puts byte k at `Addr(I + k)` and changes nothing else. -/
theorem commit_store_in_range {c : Config} {s : State} {bs : List Byte} (i : Instr) (h : RunInRange c s bs.length)
    (hlen : bs.length ≤ memSize) :
    ∃ t, commit i s ((memWriteRun c s.mem s.i.toNat bs).map s.setMem) = .next t ∧
      (∀ k (hk : k < bs.length) p, addr c (s.i.toNat + k) = .ok p → t.byteAt c p = bs[k]) ∧
      s.SameButMemRun c t bs.length := by
  obtain ⟨m, hm⟩ := memWriteRun_of_runInRange h s.mem
  refine ⟨s.setMem m, by rw [hm, Except.map, commit_ok], fun k hk p hp => ?_, rfl, fun p hp => ?_⟩
  · exact memWriteRun_stored hm hlen k hk p hp
  · exact memWriteRun_frame hm p hp

theorem commit_store_out_of_range {c : Config} {s : State} {bs : List Byte} (i : Instr) (hpos : 0 < bs.length)
    (h : ¬ RunInRange c s bs.length) :
    commit i s ((memWriteRun c s.mem s.i.toNat bs).map s.setMem) = addrRangeAt s i (max s.i.toNat 4096) := by
  obtain ⟨hc, hout⟩ := not_runInRange_iff.mp h
  rw [memWriteRun_out_of_range hc hpos hout, Except.map, commit_runTrap]

/-- A load in range commits what is made of the bytes at `Addr(I)`, `Addr(I + 1)` and so on. -/
theorem commit_load_in_range {c : Config} {s : State} {len : Nat} (i : Instr) (f : List Byte → State)
    (h : RunInRange c s len) :
    ∃ bs, commit i s ((memReadRun c s.mem s.i.toNat len).map f) = .next (f bs) ∧ bs.length = len ∧
      ∀ k p, k < len → addr c (s.i.toNat + k) = .ok p → bs[k]? = some (s.byteAt c p) := by
  obtain ⟨bs, hbs⟩ := memReadRun_of_runInRange h s.mem
  obtain ⟨hlen, hbyte⟩ := memReadRun_ok hbs
  refine ⟨bs, by rw [hbs, Except.map, commit_ok], hlen, fun k p hk hp => ?_⟩
  have hread : memRead c s.mem (s.i.toNat + k) = .ok (s.byteAt c p) := by rw [memRead, hp]; rfl
  rw [List.getElem?_eq_getElem (hlen ▸ hk), ← Except.ok.inj ((hbyte k (hlen ▸ hk)).symm.trans hread)]

theorem commit_load_out_of_range {c : Config} {s : State} {len : Nat} (i : Instr) (f : List Byte → State)
    (hpos : 0 < len) (h : ¬ RunInRange c s len) :
    commit i s ((memReadRun c s.mem s.i.toNat len).map f) = addrRangeAt s i (max s.i.toNat 4096) := by
  obtain ⟨hc, hout⟩ := not_runInRange_iff.mp h
  rw [memReadRun_out_of_range hc hpos hout, Except.map, commit_runTrap]

/-! ## LD B (43_memory_transfer.md R164) -/

/-- A number below 256 is a byte. -/
theorem byte_ofNat_toNat {n : Nat} (h : n < 256) : (BitVec.ofNat 8 n).toNat = n :=
  (BitVec.toNat_ofNat _ _).trans (Nat.mod_eq_of_lt h)

theorem ldBWith_in_range {c : Config} {x : Nibble} {s : State} (h : RunInRange c s 3) :
    ∃ t, ldBWith c x s = .next t ∧ StoresDigits c s t x := by
  obtain ⟨t, ht, hbytes, hframe⟩ :=
    commit_store_in_range (bs := decimalDigits (s.readV x)) (.ldB x) h (by decide : 3 ≤ memSize)
  have hv := (s.readV x).isLt
  refine ⟨t, ht, fun a ha => ?_, fun a ha => ?_, fun a ha => ?_, hframe⟩
  · rw [hbytes 0 (by decide : 0 < 3) a ha]; exact byte_ofNat_toNat (by omega)
  · rw [hbytes 1 (by decide : 1 < 3) a ha]; exact byte_ofNat_toNat (by omega)
  · rw [hbytes 2 (by decide : 2 < 3) a ha]; exact byte_ofNat_toNat (by omega)

/-- Settles O47: a store of the three digits, at the defaults always in range. -/
theorem ldBStoresDigits : Obligations.LdBStoresDigits := by
  unfold Obligations.LdBStoresDigits
  intro x s
  exact ⟨decodeWord_encode (i := .ldB x) rfl, ldBWith_in_range (runInRange_defaults s 3), fun _ _ => ⟨ldBWith_in_range,
    commit_store_out_of_range (bs := decimalDigits (s.readV x)) (.ldB x) (by decide : 0 < 3)⟩⟩

/-! ## LD [I], Vx and LD Vx, [I] (43_memory_transfer.md R162, R163) -/

theorem ldMemVxWith_in_range {c : Config} {x : Nibble} {s : State} (h : RunInRange c s (x.toNat + 1)) :
    ∃ t, ldMemVxWith c x s = .next t ∧ StoresRegs c s t x := by
  have hx : x.toNat < 16 := x.isLt
  have hlen := s.regRun_length x
  obtain ⟨t, ht, hbytes, hframe⟩ := commit_store_in_range (bs := s.regRun x) (.ldMemVx x) (hlen ▸ h)
    (by unfold memSize; omega)
  refine ⟨t, ht, fun k hk a ha => ?_, hlen ▸ hframe⟩
  rw [hbytes k.toNat (by omega) a ha, State.regRun_getElem, BitVec.ofNat_toNat, BitVec.setWidth_eq]

/-- Settles O48: a store of the register run, at the defaults always in range. -/
theorem ldMemStoresRun : Obligations.LdMemStoresRun := by
  unfold Obligations.LdMemStoresRun
  intro x s
  refine ⟨decodeWord_encode (i := .ldMemVx x) rfl, ldMemVxWith_in_range (runInRange_defaults s _),
    fun _ _ => ⟨ldMemVxWith_in_range, fun h => ?_⟩⟩
  rw [← s.regRun_length x] at h
  exact commit_store_out_of_range (.ldMemVx x) (by rw [State.regRun_length]; exact Nat.succ_pos _) h

theorem ldVxMemWith_in_range {c : Config} {x : Nibble} {s : State} (h : RunInRange c s (x.toNat + 1)) :
    ∃ t, ldVxMemWith c x s = .next t ∧ LoadsRegs c s t x := by
  have hx : x.toNat < 16 := x.isLt
  obtain ⟨bs, ht, hlen, hbytes⟩ := commit_load_in_range (.ldVxMem x) (s.writeRun 0) h
  have hreg (z : Nibble) : (s.writeRun 0 bs).readV z = (bs[z.toNat]?).getD (s.readV z) := by
    rw [State.readV_writeRun s 0 bs (by omega), if_pos (Nat.zero_le _), Nat.sub_zero]
  refine ⟨_, ht, fun k hk a ha => ?_, fun k hk => ?_, s.writeRun_sameButRegs 0 bs⟩
  · rw [hreg, hbytes k.toNat a (Nat.lt_succ_of_le hk) ha, Option.getD_some]
  · rw [hreg, List.getElem?_eq_none (by omega), Option.getD_none]

/-- Settles O49: a load into the register run, at the defaults always in range. -/
theorem ldRegsLoadsRun : Obligations.LdRegsLoadsRun := by
  unfold Obligations.LdRegsLoadsRun
  intro x s
  exact ⟨decodeWord_encode (i := .ldVxMem x) rfl, ldVxMemWith_in_range (runInRange_defaults s _), fun _ _ =>
    ⟨ldVxMemWith_in_range, commit_load_out_of_range (.ldVxMem x) (s.writeRun 0) (Nat.succ_pos _)⟩⟩

end Sys2Proof.Machine
end

section
/-! Timers and input (44_timers_input.md R180 to R185): the step whose handler raises no fault, which ends with the timer
phase; from it the timer read and the two timer writes; the key a byte names and when it names none; the lowest pressed
key. -/

namespace Sys2Proof.Machine

/-! ## The step of a completed handler (40_cycle_dispatch.md R96) -/

/-- A step whose handler raises no fault ends with the timer phase on what the handler left. -/
theorem step_of_exec {s u : State} {w : Word} {i : Instr} (hf : s.fault = false) (hw : fetch defaults s = .ok w)
    (hdecode : decodeWord w = i) (hrun : exec i s.advance = .next u) (hu : u.fault = false) : step s = .next u.tick := by
  rw [← State.finish_of_ok hu]
  cases hdecode
  exact cycle_fetched hf hw hrun

/-! ## The timer accesses (44_timers_input.md R180 to R182) -/

/-- Settles O51: a register write of DT, whose step then ticks DT and leaves the registers. -/
theorem ldVxDtReadsTimer : Obligations.LdVxDtReadsTimer := by
  unfold Obligations.LdVxDtReadsTimer
  intro x s
  have hdecode : decodeWord (0xF#4 ++ x ++ 0x07#8) = .ldVxDt x := decodeWord_encode (i := .ldVxDt x) rfl
  refine ⟨hdecode, ⟨_, rfl, s.readV_writeV_self x _, s.writeV_sameButV x _⟩, fun hf hw => ?_⟩
  exact ⟨_, step_of_exec hf hw hdecode rfl hf, s.advance.readV_writeV_self x _, countDown_toNat _⟩

/-- Settles O52: the advance leaves V[x], and the timer phase counts down the V[x] the handler wrote. -/
theorem timerWritesThenTick : Obligations.TimerWritesThenTick := by
  unfold Obligations.TimerWritesThenTick
  intro x s
  have hdt : decodeWord (0xF#4 ++ x ++ 0x15#8) = .ldDtVx x := decodeWord_encode (i := .ldDtVx x) rfl
  have hst : decodeWord (0xF#4 ++ x ++ 0x18#8) = .ldStVx x := decodeWord_encode (i := .ldStVx x) rfl
  exact ⟨hdt, hst, rfl, rfl, fun hf hw => ⟨_, step_of_exec hf hw hdt rfl hf, countDown_toNat _⟩,
    fun hf hw => ⟨_, step_of_exec hf hw hst rfl hf, countDown_toNat _⟩⟩

/-! ## The skips on a key (44_timers_input.md R183, R184; 60_exceptions.md R227) -/

/-- Under wrap, and below 16 under either policy, a byte names the key of its value modulo 16. -/
theorem keyIdx_in_range {c : Config} {b : Byte} (h : c.oob = .wrap ∨ b.toNat < 16) :
    keyIdx c b = .ok (Fin.ofNat 16 b.toNat) := by
  cases hc : c.oob with
  | wrap => exact keyIdx_wrap hc b
  | fault =>
    have hb : b.toNat < 16 := h.resolve_left (by rw [hc]; decide)
    simp only [keyIdx, hc, dif_pos hb]
    exact congrArg Except.ok (Fin.ext (Nat.mod_eq_of_lt hb).symm)

/-- Under the policy fault a byte of 16 or more names no key. -/
theorem keyIdx_out_of_range {c : Config} {b : Byte} (hc : c.oob = .fault) (hb : 16 ≤ b.toNat) :
    keyIdx c b = .error { cause := .keyRange, info := zextByte b } := by
  simp only [keyIdx, hc, dif_neg (Nat.not_lt.mpr hb)]

theorem skpWith_in_range {c : Config} {x : Nibble} {s : State} (ign : Nibble)
    (h : c.oob = .wrap ∨ (s.readV x).toNat < 16) :
    skpWith c x ign s = .next (s.skipIf (s.keyDown (Fin.ofNat 16 (s.readV x).toNat))) := by
  rw [skpWith, keyIdx_in_range h, Except.map, commit_ok]

theorem sknpWith_in_range {c : Config} {x : Nibble} {s : State} (ign : Nibble)
    (h : c.oob = .wrap ∨ (s.readV x).toNat < 16) :
    sknpWith c x ign s = .next (s.skipIf (!s.keyDown (Fin.ofNat 16 (s.readV x).toNat))) := by
  rw [sknpWith, keyIdx_in_range h, Except.map, commit_ok]

/-- A skip on the key of a byte that names none commits nothing and raises KEY_RANGE. -/
theorem commit_key_out_of_range {c : Config} {b : Byte} (hc : c.oob = .fault) (hb : 16 ≤ b.toNat) (i : Instr)
    (s : State) (f : Fin 16 → State) :
    commit i s ((keyIdx c b).map f) =
      .next (s.takeFault (s.pc - 2) (encode i) { cause := .keyRange, info := zextByte b }) := by
  rw [keyIdx_out_of_range hc hb, Except.map, commit_error]

theorem State.skipIf_not (s : State) (b : Bool) : s.skipIf (!b) = if b then s else s.skip := by
  cases b <;> rfl

/-- Settles O53: the defaults are wrap, so `exec` is the case where the byte names a key. -/
theorem keySkips : Obligations.KeySkips := by
  unfold Obligations.KeySkips
  intro x ign s
  have hskp : exec (.skp x ign) s = .next (s.skipIf (s.keyDown (Fin.ofNat 16 (s.readV x).toNat))) :=
    skpWith_in_range (c := defaults) ign (Or.inl rfl)
  have hsknp : exec (.sknp x ign) s = .next (s.skipIf (!s.keyDown (Fin.ofNat 16 (s.readV x).toNat))) :=
    sknpWith_in_range (c := defaults) ign (Or.inl rfl)
  refine ⟨decodeWord_encode (i := .skp x ign) rfl, decodeWord_encode (i := .sknp x ign) rfl, hskp,
    hsknp.trans (congrArg _ (s.skipIf_not _)), fun c r => ⟨fun h => ?_, fun hc hb => ?_⟩⟩
  · exact ⟨(skpWith_in_range ign h).trans hskp.symm, (sknpWith_in_range ign h).trans hsknp.symm⟩
  · simp only [List.forall_mem_cons, List.not_mem_nil, false_imp_iff, implies_true, and_true]
    exact ⟨commit_key_out_of_range hc hb _ s _, commit_key_out_of_range hc hb _ s _⟩

/-! ## LD Vx, K (44_timers_input.md R185) -/

/-- The first pressed slot is the pressed slot with none pressed below it. -/
theorem State.firstKey_of_lowest {s : State} {k : Fin 16} (hk : s.keyDown k = true)
    (hlow : ∀ j, j < k → s.keyDown j = false) : s.firstKey = some k := by
  cases hfirst : s.firstKey with
  | none => exact absurd hk (Bool.eq_false_iff.mp (s.firstKey_none.mp hfirst k))
  | some j =>
    obtain ⟨hj, hjlow⟩ := State.firstKey_some hfirst
    rcases lt_trichotomy j k with hlt | rfl | hgt
    · exact absurd hj (Bool.eq_false_iff.mp (hlow j hlt))
    · rfl
    · exact absurd hk (Bool.eq_false_iff.mp (hjlow k hgt))

theorem exec_ldVxK_of_key {s : State} {k : Fin 16} (x : Nibble) (h : s.firstKey = some k) :
    exec (.ldVxK x) s = .next (s.writeV x (BitVec.ofNat 8 k.val)) := by
  simp only [exec, execLdVxK, h]

theorem exec_ldVxK_of_no_key {s : State} (x : Nibble) (h : ∀ k, s.keyDown k = false) :
    exec (.ldVxK x) s = .next s.rewind := by
  simp only [exec, execLdVxK, s.firstKey_none.mpr h]

/-- The rewind takes back the advance. -/
theorem State.rewind_advance (s : State) : s.advance.rewind = s := by
  have hpc : s.pc + 2 - 2 = s.pc := BitVec.add_sub_cancel s.pc 2
  exact congrArg s.setPc hpc

/-- Settles O54: a register write of the lowest key; with none, the rewind takes back the advance and the timers tick. -/
theorem waitKeyTakesLowest : Obligations.WaitKeyTakesLowest := by
  unfold Obligations.WaitKeyTakesLowest
  intro x s
  have hdecode : decodeWord (0xF#4 ++ x ++ 0x0A#8) = .ldVxK x := decodeWord_encode (i := .ldVxK x) rfl
  refine ⟨hdecode, fun k hk hlow => ?_, exec_ldVxK_of_no_key x, fun hnone hf hw => ?_⟩
  · refine ⟨_, exec_ldVxK_of_key x (State.firstKey_of_lowest hk hlow), ?_, s.writeV_sameButV x _⟩
    rw [State.readV_writeV_self, byte_ofNat_toNat (by omega)]
  · have hrun : exec (.ldVxK x) s.advance = .next s := by
      rw [exec_ldVxK_of_no_key x (s := s.advance) hnone, State.rewind_advance]
    exact ⟨_, step_of_exec hf hw hdecode hrun hf, rfl, countDown_toNat _, countDown_toNat _⟩

end Sys2Proof.Machine
end

section
/-! The display (45_display.md R200 to R202): CLS; the pixels DRW toggles as those the sprite covers with a set bit, and from
them what a completed DRW leaves; a second DRW at the same position, which covers the same pixels. -/

namespace Sys2Proof.Machine

/-! ## CLS (45_display.md R202) -/

/-- Inside the framebuffer the host reads the pixel (60_exceptions.md R239). -/
theorem fbRead_inside {c : Config} {X Y : Nat} (b : Block) (hX : X < c.fbW) (hY : Y < c.fbH) :
    fbRead c b X Y = some (Framebuffer.lit b.fb (X, Y)) :=
  if_pos ⟨hX, hY⟩

/-- Settles O55: the framebuffer CLS leaves is the clear one, and the word 0 decodes to a CLS. -/
theorem clsClearsEveryPixel : Obligations.ClsClearsEveryPixel := by
  unfold Obligations.ClsClearsEveryPixel
  intro ign s
  refine ⟨decodeWord_encode (i := .cls ign) rfl, ⟨s.setFb [], rfl, fun X Y hX hY => ?_, Framebuffer.lit_nil, rfl⟩,
    fun hf hw => ?_⟩
  · rw [fbRead_inside _ hX hY, State.setFb_fb, Framebuffer.lit_nil]
  · have hdecode : decodeWord 0 = .cls 0 := rfl
    exact ⟨_, step_of_exec hf hw hdecode rfl hf, rfl, Framebuffer.lit_nil, rfl⟩

/-! ## The pixels DRW toggles (45_display.md R200) -/

/-- The pixels DRW Vx, Vy toggles once its row bytes are read. -/
def State.drawnPixels (c : Config) (s : State) (x y : Nibble) (rows : List Byte) : List Pixel :=
  spritePixels c ((s.readV x).toNat % c.fbW) ((s.readV y).toNat % c.fbH) rows

/-- The rows are the n bytes from I on, each at its address modulo 4096. -/
structure State.SpriteRows (c : Config) (s : State) (n : Nat) (rows : List Byte) : Prop where
  length : rows.length = n
  byte : ∀ k, k < n → rows[k]? = some (s.byteAt c ((s.i.toNat + k) % memSize))

/-- The toggled pixels are the visible ones that the sprite covers with a set bit. -/
theorem State.SpriteRows.mem_drawnPixels {c : Config} {s : State} {n : Nibble} {rows : List Byte}
    (h : s.SpriteRows c n.toNat rows) {x y : Nibble} {X Y : Nat} :
    (X, Y) ∈ s.drawnPixels c x y rows ↔ X < c.fbW ∧ Y < c.fbH ∧ drawsAt c s x y n X Y = true := by
  unfold State.drawnPixels drawsAt spriteBit
  generalize (s.readV x).toNat % c.fbW = px
  generalize (s.readV y).toNat % c.fbH = py
  rw [mem_spritePixels, Bool.and_eq_true, decide_eq_true_eq]
  constructor
  · rintro ⟨hX, hY, hl, hr, ht, b, hb, hbit⟩
    obtain ⟨hk, -⟩ := List.getElem?_eq_some_iff.mp hb
    rw [h.length] at hk
    obtain rfl : _ = b := Option.some.inj ((h.byte _ hk).symm.trans hb)
    exact ⟨hX, hY, ⟨ht, by omega, hl, hr⟩, hbit⟩
  · rintro ⟨hX, hY, ⟨ht, hn, hl, hr⟩, hbit⟩
    exact ⟨hX, hY, hl, hr, ht, _, h.byte _ (by omega), hbit⟩

/-- The drawing inverts the toggled pixels and no other. -/
theorem State.lit_drawSprite (c : Config) (s : State) (x y : Nibble) (rows : List Byte) (q : Pixel) :
    Framebuffer.lit (s.drawSprite c x y rows).fb q =
      (Framebuffer.lit s.fb q ^^ decide (q ∈ s.drawnPixels c x y rows)) :=
  (drawPixels_spec _ (spritePixels_nodup c _ _ rows) s.fb false).1 q

/-- VF is whether a toggled pixel was set. -/
theorem State.readV_drawSprite_flag (c : Config) (s : State) (x y : Nibble) (rows : List Byte) :
    (s.drawSprite c x y rows).readV flagReg =
      flagByte ((s.drawnPixels c x y rows).any (Framebuffer.lit s.fb)) := by
  have hcol := (drawPixels_spec _ (spritePixels_nodup c ((s.readV x).toNat % c.fbW) ((s.readV y).toNat % c.fbH) rows)
    s.fb false).2
  rw [State.drawSprite, State.readV_writeV_self, hcol, Bool.false_or, State.drawnPixels]

/-- The drawing of the rows read is the effect of DRW. -/
theorem State.SpriteRows.drawsSprite {c : Config} {s : State} {n : Nibble} {rows : List Byte}
    (h : s.SpriteRows c n.toNat rows) (x y : Nibble) : DrawsSprite c s (s.drawSprite c x y rows) x y n := by
  refine ⟨fun X Y hX hY => ?_, fun X Y hout => ?_, fun ⟨X, Y, hX, hY, hbit, hlit⟩ => ?_, fun hclear => ?_,
    fun z hz => State.readV_writeV_ne _ _ hz.symm, rfl⟩
  · have hmem : (X, Y) ∈ s.drawnPixels c x y rows ↔ drawsAt c s x y n X Y = true := by
      rw [h.mem_drawnPixels]; exact ⟨fun ⟨_, _, hbit⟩ => hbit, fun hbit => ⟨hX, hY, hbit⟩⟩
    simp only [State.lit_drawSprite, hmem, Bool.decide_eq_true]
  · have hmem : (X, Y) ∉ s.drawnPixels c x y rows := fun hin => by
      obtain ⟨hX, hY, -⟩ := h.mem_drawnPixels.mp hin
      exact hout ⟨hX, hY⟩
    rw [State.lit_drawSprite, decide_eq_false hmem, Bool.xor_false]
  · have hmet : (s.drawnPixels c x y rows).any (Framebuffer.lit s.fb) = true :=
      List.any_eq_true.mpr ⟨(X, Y), h.mem_drawnPixels.mpr ⟨hX, hY, hbit⟩, hlit⟩
    rw [State.readV_drawSprite_flag, hmet]; rfl
  · have hmiss : (s.drawnPixels c x y rows).any (Framebuffer.lit s.fb) = false :=
      List.any_eq_false.mpr fun (X, Y) hin => by
        obtain ⟨hX, hY, hbit⟩ := h.mem_drawnPixels.mp hin
        rw [hclear X Y hX hY hbit]; exact Bool.false_ne_true
    rw [State.readV_drawSprite_flag, hmiss]; rfl

/-! ## DRW (45_display.md R200, 60_exceptions.md R226) -/

/-- An address of a run in range is used modulo 4096, under the policy fault as it is. -/
theorem addr_of_runInRange {c : Config} {s : State} {len k : Nat} (h : RunInRange c s len) (hk : k < len) :
    addr c (s.i.toNat + k) = .ok ((s.i.toNat + k) % memSize) := by
  cases hc : c.oob with
  | wrap => exact addr_wrap hc _
  | fault =>
    have hend : s.i.toNat + len ≤ memSize := h.resolve_left (by rw [hc]; decide)
    have hlt : s.i.toNat + k < memSize := by omega
    rw [addr_fault_of_lt hc hlt, Nat.mod_eq_of_lt hlt]

/-- DRW with no rows or with its rows in range completes. -/
theorem drwWith_in_range {c : Config} {n : Nibble} {s : State} (x y : Nibble) (h : n = 0 ∨ RunInRange c s n.toNat) :
    ∃ t, drwWith c x y n s = .next t ∧ DrawsSprite c s t x y n := by
  rcases h with rfl | h
  · have hrows : s.SpriteRows c (0 : Nibble).toNat [] := ⟨rfl, nofun⟩
    exact ⟨s.drawSprite c x y [], rfl, hrows.drawsSprite x y⟩
  · obtain ⟨rows, ht, hlen, hbyte⟩ := commit_load_in_range (.drw x y n) (s.drawSprite c x y) h
    have hrows : s.SpriteRows c n.toNat rows := ⟨hlen, fun k hk => hbyte k _ hk (addr_of_runInRange h hk)⟩
    exact ⟨_, ht, hrows.drawsSprite x y⟩

/-- At the defaults DRW always completes. -/
theorem exec_drw (x y n : Nibble) (s : State) :
    ∃ t, exec (.drw x y n) s = .next t ∧ DrawsSprite defaults s t x y n :=
  drwWith_in_range x y (Or.inr (runInRange_defaults s n.toNat))

/-- Settles O56: a load of the rows, at the defaults always in range, and the drawing of what it read. -/
theorem drawXorsAndCollides : Obligations.DrawXorsAndCollides := by
  unfold Obligations.DrawXorsAndCollides
  intro x y n s
  refine ⟨decodeWord_encode (i := .drw x y n) rfl, exec_drw x y n s,
    fun c r => ⟨drwWith_in_range x y, fun hn hout => ?_⟩⟩
  have hpos : 0 < n.toNat := Nat.pos_of_ne_zero fun h => hn (BitVec.eq_of_toNat_eq h)
  exact commit_load_out_of_range (.drw x y n) (s.drawSprite c x y) hpos hout

/-! ## DRW twice (45_display.md R201) -/

/-- VF after a draw is 1 exactly when a visible set bit met a set pixel. -/
theorem DrawsSprite.flag_eq_one_iff {c : Config} {s t : State} {x y n : Nibble} (h : DrawsSprite c s t x y n) :
    t.readV flagReg = 1 ↔
      ∃ X Y, X < c.fbW ∧ Y < c.fbH ∧ drawsAt c s x y n X Y = true ∧ Framebuffer.lit s.fb (X, Y) = true := by
  obtain ⟨-, -, hmet, hclear, -, -⟩ := h
  refine ⟨fun hone => ?_, hmet⟩
  by_contra hnone
  have hzero : t.readV flagReg = 0 := hclear fun X Y hX hY hbit =>
    Bool.eq_false_iff.mpr fun hlit => hnone ⟨X, Y, hX, hY, hbit, hlit⟩
  exact absurd (hzero.symm.trans hone) (by decide)

/-- A draw whose position registers are not VF leaves the sprite and its position as they were. -/
theorem DrawsSprite.drawsAt_eq {c : Config} {s t : State} {x y n : Nibble} (h : DrawsSprite c s t x y n)
    (hx : x ≠ flagReg) (hy : y ≠ flagReg) (X Y : Nat) : drawsAt c t x y n X Y = drawsAt c s x y n X Y := by
  obtain ⟨-, -, -, -, hreg, hframe⟩ := h
  have hi : t.i = s.i := by rw [hframe]
  have hmem : t.mem = s.mem := by rw [hframe]
  simp only [drawsAt, spriteBit, Block.byteAt, hreg x hx, hreg y hy, hi, hmem]

/-- Two draws at the same position leave every pixel as it was: the second takes the first back. -/
theorem DrawsSprite.lit_twice {c : Config} {s t u : State} {x y n : Nibble} (h : DrawsSprite c s t x y n)
    (h' : DrawsSprite c t u x y n) (hx : x ≠ flagReg) (hy : y ≠ flagReg) (p : Pixel) :
    Framebuffer.lit u.fb p = Framebuffer.lit s.fb p := by
  have hsame := h.drawsAt_eq hx hy
  obtain ⟨hin, hout, -⟩ := h
  obtain ⟨hin', hout', -⟩ := h'
  obtain ⟨X, Y⟩ := p
  by_cases hp : X < c.fbW ∧ Y < c.fbH
  · obtain ⟨hX, hY⟩ := hp
    rw [hin' X Y hX hY, hin X Y hX hY, hsame, Bool.xor_assoc, Bool.xor_self, Bool.xor_false]
  · rw [hout' X Y hp, hout X Y hp]

/-- The second draw at the same position collides exactly where the first set a pixel that was clear. -/
theorem DrawsSprite.flag_twice_eq_one_iff {c : Config} {s t u : State} {x y n : Nibble} (h : DrawsSprite c s t x y n)
    (h' : DrawsSprite c t u x y n) (hx : x ≠ flagReg) (hy : y ≠ flagReg) :
    u.readV flagReg = 1 ↔
      ∃ X Y, X < c.fbW ∧ Y < c.fbH ∧ drawsAt c s x y n X Y = true ∧ Framebuffer.lit s.fb (X, Y) = false := by
  have hsame := h.drawsAt_eq hx hy
  obtain ⟨hin, -⟩ := h
  have hpixel (X Y : Nat) (hX : X < c.fbW) (hY : Y < c.fbH) (hbit : drawsAt c s x y n X Y = true) :
      Framebuffer.lit t.fb (X, Y) = !Framebuffer.lit s.fb (X, Y) := by
    rw [hin X Y hX hY, hbit, Bool.xor_true]
  simp only [h'.flag_eq_one_iff, hsame]
  refine exists₂_congr fun X Y => and_congr_right fun hX => and_congr_right fun hY => and_congr_right fun hbit => ?_
  rw [hpixel X Y hX hY hbit, Bool.not_eq_true']

/-- Every execute phase keeps the framebuffer canonical. -/
theorem exec_keeps_fb_wf {i : Instr} {s t : State} (h : exec i s = .next t) (hs : Framebuffer.Wf defaults s.fb) :
    Framebuffer.Wf defaults t.fb := by
  rw [exec_eq_execWith] at h
  obtain ⟨-, hfb⟩ := execWith_effects h
  exact hfb.wf hs

/-- Settles O57: the two draws cover the same pixels; canonical framebuffers that show the same pixels are equal. -/
theorem drawTwiceRestores : Obligations.DrawTwiceRestores := by
  unfold Obligations.DrawTwiceRestores
  intro x y n s hx hy hs
  obtain ⟨t, ht, hdraw⟩ := exec_drw x y n s
  obtain ⟨u, hu, hdraw'⟩ := exec_drw x y n t
  have hflag := hdraw.flag_twice_eq_one_iff hdraw' hx hy
  refine ⟨t, u, ht, hu, ?_, hflag, fun hzero ⟨X, Y, hX, hY, hbit⟩ => hflag.mpr ⟨X, Y, hX, hY, hbit, ?_⟩⟩
  · have huwf := exec_keeps_fb_wf hu (exec_keeps_fb_wf ht hs)
    exact Framebuffer.ext_lit huwf hs (hdraw.lit_twice hdraw' hx hy)
  · refine Bool.eq_false_iff.mpr fun hlit => ?_
    have hone := hdraw.flag_eq_one_iff.mpr ⟨X, Y, hX, hY, hbit, hlit⟩
    exact absurd (hzero.symm.trans hone) (by decide)

end Sys2Proof.Machine
end

section
/-! Faults (60_exceptions.md R221 to R229, R242): which trap each instruction can raise and when; from it the precision and
the four causes of a step's fault and the steps that fault at the defaults; the faulted block; the idle step. -/

namespace Sys2Proof.Machine

/-! ## Addresses out of range (60_exceptions.md R226, R228) -/

/-- The address a run's trap reports is out of range. -/
theorem le_runTrap_info (w : Word) : 4096 ≤ (runTrap w.toNat).info.toNat := by
  have hinfo : (runTrap w.toNat).info.toNat = max w.toNat memSize :=
    Nat.mod_eq_of_lt (Nat.max_lt.mpr ⟨w.isLt, by decide⟩)
  rw [hinfo]
  exact le_max_right _ _

/-- The first address refused in a run from a is refused under the policy fault, as the smallest one out of range. -/
theorem addr_first_error {c : Config} {a k : Nat} {e : Trap} (h : addr c (a + k) = .error e)
    (hbefore : ∀ j, j < k → ∃ p, addr c (a + j) = .ok p) : c.oob = .fault ∧ e = runTrap a := by
  obtain ⟨hc, hout, rfl⟩ := addr_error h
  refine ⟨hc, ?_⟩
  cases k with
  | zero => exact (runTrap_of_ge hout).symm
  | succ k =>
    obtain ⟨p, hp⟩ := hbefore k k.lt_succ_self
    have hin : a + k < memSize := by
      by_contra hge
      rw [addr_fault_of_le hc (Nat.not_lt.mp hge)] at hp
      cases hp
    have hmax : a + (k + 1) = max a memSize := by omega
    rw [hmax, runTrap]

theorem memReadRun_error_runTrap {c : Config} {m : Memory} {a len : Nat} {e : Trap}
    (h : memReadRun c m a len = .error e) : c.oob = .fault ∧ e = runTrap a := by
  obtain ⟨k, -, hk, hbefore⟩ := memReadRun_error h
  exact addr_first_error hk hbefore

theorem memWriteRun_error_runTrap {c : Config} {m : Memory} {a : Nat} {bs : List Byte} {e : Trap}
    (h : memWriteRun c m a bs = .error e) : c.oob = .fault ∧ e = runTrap a := by
  obtain ⟨k, -, hk, hbefore⟩ := memWriteRun_error h
  exact addr_first_error hk hbefore

theorem fetch_error_runTrap {c : Config} {s : State} {e : Trap} (h : fetch c s = .error e) :
    c.oob = .fault ∧ e = runTrap s.pc.toNat := by
  rcases fetch_error h with hpc | ⟨hpc, hnext⟩
  · exact addr_first_error (k := 0) hpc nofun
  · exact addr_first_error (k := 1) hnext fun j hj => by rwa [Nat.lt_one_iff.mp hj]

/-! ## The traps of the execute phase (60_exceptions.md R223 to R227) -/

/-- Instruction i, entered in state s, meets the condition of trap e: one constructor per cause of R223. -/
inductive Raises (c : Config) (s : State) : Instr → Trap → Prop where
  /-- CALL with 16 entries held (R224). -/
  | stackOverflow (nnn : Addr12) (hsp : s.sp = 16) : Raises c s (.call nnn) { cause := .stackOverflow, info := 16 }
  /-- RET with none held (R225). -/
  | stackUnderflow (ign : Byte) (hsp : s.sp = 0) : Raises c s (.ret ign) { cause := .stackUnderflow, info := 0 }
  /-- DRW, LD B, LD [I] or LD Vx, [I] over a run at I that leaves memory (R226). -/
  | addrRange {i : Instr} (hi : kindNumber i ∈ [23, 32, 33, 34]) (hc : c.oob = .fault) : Raises c s i (runTrap s.i.toNat)
  /-- SKP or SKNP on a byte that names no key (R227). -/
  | keyRange {i : Instr} (x ign : Nibble) (hi : i = .skp x ign ∨ i = .sknp x ign) (hc : c.oob = .fault)
      (hx : 16 ≤ (s.readV x).toNat) : Raises c s i { cause := .keyRange, info := zextByte (s.readV x) }

theorem Raises.cause_ne_none {c : Config} {s : State} {i : Instr} {e : Trap} (h : Raises c s i e) : e.cause ≠ .none := by
  cases h <;> exact FaultCause.noConfusion

/-- The advance writes none of what the conditions read. -/
theorem Raises.of_advance {c : Config} {s : State} {i : Instr} {e : Trap} (h : Raises c s.advance i e) :
    Raises c s i e := by
  cases h with
  | stackOverflow nnn hsp => exact .stackOverflow nnn hsp
  | stackUnderflow ign hsp => exact .stackUnderflow ign hsp
  | addrRange hi hc => exact .addrRange hi hc
  | keyRange x ign hi hc hx => exact .keyRange x ign hi hc hx

/-- How the execute phase of i may end in a latch it did not enter with: some trap's condition is met, and only it is
latched. -/
abbrev RaisedIn (c : Config) (i : Instr) (s t : State) : Prop :=
  ∃ e, Raises c s i e ∧ t = s.takeFault (s.pc - 2) (encode i) e

/-- Committing sets the latch only by an error of what is committed. -/
theorem commit_raisedIn {α : Type} {c : Config} {i : Instr} {s t : State} {r : Except Trap α} {f : α → State}
    (h : commit i s (r.map f) = .next t) (hne : t.fault ≠ s.fault) (hf : ∀ a, r = .ok a → (f a).fault = s.fault)
    (he : ∀ e, r = .error e → Raises c s i e) : RaisedIn c i s t := by
  rcases commit_map_next h with ⟨a, ha, rfl⟩ | ⟨e, hr, rfl⟩
  · exact absurd (hf a ha) hne
  · exact ⟨e, he e hr, rfl⟩

theorem State.skipIf_fault (s : State) (b : Bool) : (s.skipIf b).fault = s.fault := by
  rw [State.skipIf_eq_setPc]; rfl

/-- A skip on the key of V[x] raises KEY_RANGE at most. -/
theorem commit_skipKey_raisedIn {c : Config} {i : Instr} {x ign : Nibble} {s t : State} {f : Fin 16 → Bool}
    (hi : i = .skp x ign ∨ i = .sknp x ign)
    (h : commit i s ((keyIdx c (s.readV x)).map fun k => s.skipIf (f k)) = .next t) (hne : t.fault ≠ s.fault) :
    RaisedIn c i s t := by
  refine commit_raisedIn h hne (fun k _ => s.skipIf_fault _) fun e he => ?_
  obtain ⟨hc, hx, rfl⟩ := keyIdx_error he
  exact .keyRange x ign hi hc hx

/-- A store at I raises ADDR_RANGE at most. -/
theorem commit_store_raisedIn {c : Config} {i : Instr} {s t : State} {bs : List Byte}
    (hi : kindNumber i ∈ [23, 32, 33, 34])
    (h : commit i s ((memWriteRun c s.mem s.i.toNat bs).map s.setMem) = .next t) (hne : t.fault ≠ s.fault) :
    RaisedIn c i s t := by
  refine commit_raisedIn h hne (fun _ _ => rfl) fun e he => ?_
  obtain ⟨hc, rfl⟩ := memWriteRun_error_runTrap he
  exact .addrRange hi hc

/-- A load from I raises ADDR_RANGE at most. -/
theorem commit_load_raisedIn {c : Config} {i : Instr} {s t : State} {len : Nat} {f : List Byte → State}
    (hi : kindNumber i ∈ [23, 32, 33, 34])
    (h : commit i s ((memReadRun c s.mem s.i.toNat len).map f) = .next t) (hne : t.fault ≠ s.fault)
    (hf : ∀ bs, (f bs).fault = s.fault) : RaisedIn c i s t := by
  refine commit_raisedIn h hne (fun bs _ => hf bs) fun e he => ?_
  obtain ⟨hc, rfl⟩ := memReadRun_error_runTrap he
  exact .addrRange hi hc

/-- Which faults an execute phase can raise, said once for all instructions. -/
theorem execWith_raisedIn {c : Config} {r : Byte} {i : Instr} {s t : State} (h : execWith c r i s = .next t)
    (hne : t.fault ≠ s.fault) : RaisedIn c i s t := by
  cases i with
  | ret ign =>
    refine commit_raisedIn h hne (fun p hp => ?_) fun e he => ?_
    · obtain ⟨-, -, hs⟩ := State.pop_ok hp
      rw [hs]; rfl
    · obtain ⟨hsp, rfl⟩ := State.pop_error he
      exact .stackUnderflow ign hsp
  | call nnn =>
    refine commit_raisedIn h hne (fun u hu => ?_) fun e he => ?_
    · obtain ⟨_, hs⟩ := State.push_ok hu
      rw [hs]; rfl
    · obtain ⟨hsp, rfl⟩ := State.push_error he
      exact .stackOverflow nnn hsp
  | ldB | ldMemVx => exact commit_store_raisedIn (by simp [kindNumber]) h hne
  | ldVxMem x =>
    exact commit_load_raisedIn (by simp [kindNumber]) h hne fun bs => by rw [State.writeRun_sameButRegs]; rfl
  | drw x y n => exact commit_load_raisedIn (by simp [kindNumber]) h hne fun _ => rfl
  | skp x ign => exact commit_skipKey_raisedIn (Or.inl rfl) h hne
  | sknp x ign => exact commit_skipKey_raisedIn (Or.inr rfl) h hne
  | seImm | sneImm | seReg | sneReg => cases h; exact absurd (s.skipIf_fault _) hne
  | ldVxK x =>
    simp only [execWith, execLdVxK] at h
    split at h <;> cases h <;> exact absurd rfl hne
  | _ => cases h; exact absurd rfl hne

/-! ## The faulting step (60_exceptions.md R222 to R228) -/

/-- The fault of an execute phase entered after the advance latches PC at the step's start (R222). -/
theorem State.takeFault_advance (s : State) (w : Word) (e : Trap) :
    s.advance.takeFault (s.advance.pc - 2) w e = s.takeFault s.pc w e := by
  have hpc : s.advance.pc - 2 = s.pc := congrArg (fun u : State => u.pc) s.rewind_advance
  rw [hpc]; rfl

/-- Everything a faulting step can be: the fetch left memory, or the fetched instruction met the condition of a trap. Only
the trap is latched, with PC at the step's start and the word as far as it was fetched. -/
theorem stepWith_faulted {c : Config} {r : Byte} {s t : State} (hs : s.fault = false) (h : stepWith c r s = .next t)
    (ht : t.fault = true) :
    (∃ e, fetch c s = .error e ∧ t = s.takeFault s.pc 0 e) ∨
    (∃ i e, i.wf = true ∧ fetch c s = .ok (encode i) ∧ Raises c s i e ∧ t = s.takeFault s.pc (encode i) e) := by
  rcases cycle_next h with ⟨hs', -⟩ | ⟨-, e, he, rfl⟩ | ⟨-, w, u, hw, hu, rfl⟩
  · rw [hs] at hs'; cases hs'
  · exact Or.inl ⟨e, he, rfl⟩
  · rw [State.finish_fault] at ht
    have hne : u.fault ≠ s.advance.fault := by rw [ht, State.advance_fault, hs]; decide
    obtain ⟨hwf, henc⟩ := decodeWord_reads w
    obtain ⟨e, he, rfl⟩ := execWith_raisedIn hu hne
    refine Or.inr ⟨decodeWord w, e, hwf, by rw [hw, henc], he.of_advance, ?_⟩
    rw [State.finish_of_fault ht, State.takeFault_advance]

/-- Settles O11: a faulting step latches a trap, of a named cause, and does nothing else. -/
theorem faultsArePrecise : Obligations.FaultsArePrecise := by
  unfold Obligations.FaultsArePrecise
  intro c r s t hs h ht
  rcases stepWith_faulted hs h ht with ⟨e, he, rfl⟩ | ⟨i, e, -, hw, he, rfl⟩
  · exact ⟨e.cause, e.info, fetch_error_cause he, by rw [he]; rfl⟩
  · exact ⟨e.cause, e.info, he.cause_ne_none, by rw [hw]; rfl⟩

/-- Settles O12: the fetch's trap is ADDR_RANGE, and an instruction's trap is one of the four of R223. -/
theorem faultCausesComplete : Obligations.FaultCausesComplete := by
  unfold Obligations.FaultCausesComplete
  intro c r s t hs h ht
  rcases stepWith_faulted hs h ht with ⟨e, he, rfl⟩ | ⟨i, e, hwf, hw, he, rfl⟩
  · obtain ⟨hc, rfl⟩ := fetch_error_runTrap he
    exact Or.inr (Or.inr (Or.inl ⟨rfl, hc, le_runTrap_info s.pc, Or.inl ⟨_, he⟩⟩))
  · cases he with
    | stackOverflow nnn hsp => exact Or.inl ⟨rfl, rfl, hsp, nnn, hw⟩
    | stackUnderflow ign hsp => exact Or.inr (Or.inl ⟨rfl, rfl, hsp, ign, hw⟩)
    | addrRange hi hc =>
      have hkind : kindNumber (decodeWord (encode i)) ∈ [23, 32, 33, 34] := by rwa [decodeWord_encode hwf]
      exact Or.inr (Or.inr (Or.inl ⟨rfl, hc, le_runTrap_info s.i, Or.inr ⟨_, hw, hkind⟩⟩))
    | keyRange x ign hi hc hx =>
      refine Or.inr (Or.inr (Or.inr ⟨rfl, hc, x, ign, ?_, hx, zextByte_toNat _⟩))
      rcases hi with rfl | rfl
      · exact Or.inl hw
      · exact Or.inr hw

theorem exec_call_of_sp_eq_sixteen (nnn : Addr12) {s : State} (hs : s.sp = 16) :
    ∃ u, exec (.call nnn) s = .next u ∧ u.fault = true := by
  obtain ⟨-, -, hfull⟩ := callPushes nnn s
  exact ⟨_, hfull hs, rfl⟩

theorem exec_ret_of_sp_eq_zero (ign : Byte) {s : State} (hs : s.sp = 0) :
    ∃ u, exec (.ret ign) s = .next u ∧ u.fault = true := by
  obtain ⟨-, -, hempty⟩ := retPops ign s
  exact ⟨_, hempty hs, rfl⟩

/-- A step whose instruction raises a fault ends faulted. -/
theorem step_fault_of_exec {s t : State} {i : Instr} (hs : s.fault = false) (hwf : i.wf = true)
    (hw : fetch defaults s = .ok (encode i)) (hrun : ∃ u, exec i s.advance = .next u ∧ u.fault = true)
    (h : step s = .next t) : t.fault = true := by
  obtain ⟨u, hu, hfault⟩ := hrun
  have hstep : step s = .next u.finish := cycle_fetched hs hw (by rwa [decodeWord_encode hwf])
  obtain rfl : t = u.finish := Host.Outcome.next.inj (h.symm.trans hstep)
  rw [State.finish_fault, hfault]

/-- Settles O13: the defaults are wrap, which leaves the two stack traps of R224 and R225. -/
theorem defaultStepFaultsExactly : Obligations.DefaultStepFaultsExactly := by
  unfold Obligations.DefaultStepFaultsExactly
  intro s t w hs hw h
  constructor
  · intro ht
    rw [step_eq_stepWith] at h
    rcases stepWith_faulted hs h ht with ⟨e, he, -⟩ | ⟨i, e, -, hi, he, -⟩
    · rw [hw] at he; cases he
    · obtain rfl : w = encode i := Except.ok.inj (hw.symm.trans hi)
      cases he with
      | stackOverflow nnn hsp => exact Or.inl ⟨⟨nnn, rfl⟩, hsp⟩
      | stackUnderflow ign hsp => exact Or.inr ⟨⟨ign, rfl⟩, hsp⟩
      | addrRange _ hc => cases hc
      | keyRange _ _ _ hc _ => cases hc
  · rintro (⟨⟨nnn, rfl⟩, hsp⟩ | ⟨⟨ign, rfl⟩, hsp⟩)
    · exact step_fault_of_exec hs (i := .call nnn) rfl hw (exec_call_of_sp_eq_sixteen nnn hsp) h
    · exact step_fault_of_exec hs (i := .ret ign) rfl hw (exec_ret_of_sp_eq_zero ign hsp) h

/-! ## The faulted block (60_exceptions.md R229) -/

theorem transact_step_of_faulted {c : Config} {σ : Session} (hσ : σ.core.fault = true) (r : Byte) :
    transact c (.step r) σ = .next ({ σ with loadable := false }, .done) := by
  simp only [transact, Block.step_faulted hσ]

theorem hostLoad_faultPorts (c : Config) (image : List Byte) (b : Block) :
    faultPorts (hostLoad c image b).1 = faultPorts b := by
  unfold hostLoad
  split <;> rfl

/-- No transaction but RESET changes the fault outputs of a faulted block. -/
theorem transact_faultPorts {c : Config} {σ σ' : Session} {tr : Transaction} {rep : Report} (hσ : σ.core.fault = true)
    (hne : tr ≠ .reset) (h : transact c tr σ = .next (σ', rep)) : faultPorts σ'.core = faultPorts σ.core := by
  cases tr with
  | reset => exact absurd rfl hne
  | load image =>
    simp only [transact] at h
    split at h
    · cases h; exact hostLoad_faultPorts c image σ.core
    · cases h
  | step r => rw [transact_step_of_faulted hσ] at h; cases h; rfl
  | keySet k b => cases h; rfl

/-- Settles O14: the step of a faulted block is the identity, and only RESET makes the block anew. -/
theorem faultedBlockStuck : Obligations.FaultedBlockStuck := by
  unfold Obligations.FaultedBlockStuck
  refine ⟨fun s hs => cycle_faulted hs, fun c σ hσ => ⟨transact_step_of_faulted hσ, fun k b => rfl,
    fun x y hx hy => fbRead_inside σ.core hx hy, fun tr σ' rep => transact_faultPorts hσ, fun σ' rep h => ?_⟩⟩
  cases h; rfl

/-! ## The idle step (60_exceptions.md R242) -/

/-- A step from an idle state is the timer phase alone: the jump takes back the advance. -/
theorem step_of_idle {s : State} (h : s.Idle defaults) : step s = .next s.tick := by
  obtain ⟨hf, nnn, hw, hpc⟩ := h
  have hback : s.advance.setPc (zext16 nnn) = s := by rw [hpc]; rfl
  have hrun : exec (.jp nnn) s.advance = .next s := congrArg _ hback
  exact step_of_exec hf hw (decodeWord_encode rfl) hrun hf

/-- The timer phase leaves an idle state idle. -/
theorem State.Idle.tick {c : Config} {s : State} (h : s.Idle c) : s.tick.Idle c := by
  obtain ⟨hf, nnn, hw, hpc⟩ := h
  exact ⟨hf, nnn, (fetch_congr c rfl rfl).trans hw, hpc⟩

/-- Settles O17: the step is the timer phase, which writes DT and ST alone. -/
theorem idleChangesOnlyTimers : Obligations.IdleChangesOnlyTimers := by
  unfold Obligations.IdleChangesOnlyTimers
  exact fun s h => ⟨s.tick, step_of_idle h, h.tick, rfl⟩

end Sys2Proof.Machine
end

section
/-! RESET and LOAD (70_reset_and_hazards.md R250, R254, R255): what memory reads after each, then the obligations. -/

namespace Sys2Proof.Machine

/-! ## The reset contents of memory (20_memory.md R57, R58) -/

theorem glyphTable_length : glyphTable.length = fontBytes := rfl

/-- Outside the glyph table the reset contents are zero. -/
theorem resetByte_outside_table {c : Config} {a : Nat} (h : a < c.fontBase ∨ c.fontBase + fontBytes ≤ a) :
    resetByte c a = 0 := by
  unfold resetByte
  split
  · exact List.getD_eq_default _ _ (by rw [glyphTable_length]; omega)
  · rfl

/-- Inside the glyph table the reset contents are its bytes. -/
theorem resetByte_of_glyph {c : Config} {j : Nat} {b : Byte} (h : glyphTable[j]? = some b) :
    resetByte c (c.fontBase + j) = b := by
  simp [resetByte, h]

theorem Block.byteAt_resetWith (c : Config) (a : Nat) : (Block.resetWith c).byteAt c a = resetByte c a :=
  Memory.read_nil c a

/-! ## The arrays of the reset block -/

theorem Block.readV_resetWith (c : Config) (z : Nibble) : (Block.resetWith c).readV z = 0 :=
  Vector.getElem_replicate _

theorem Block.keyDown_resetWith (c : Config) (k : Fin 16) : (Block.resetWith c).keyDown k = false :=
  Vector.getElem_replicate _

theorem Block.stack_resetWith (c : Config) {j : Nat} (hj : j < 16) : (Block.resetWith c).stack[j]? = some 0 :=
  Vector.getElem?_replicate_of_lt hj

/-- Settles O58: element by element; the memory clauses by the law on the reset contents. -/
theorem resetValues : Obligations.ResetValues := by
  unfold Obligations.ResetValues
  refine ⟨rfl, fun _ => rfl, fun c old => ?_⟩
  exact ⟨rfl, rfl, rfl, rfl, rfl, rfl, Block.readV_resetWith c, fun j hj => Block.stack_resetWith c hj,
    Block.keyDown_resetWith c, Framebuffer.lit_nil,
    fun a ha => (Block.byteAt_resetWith c a).trans (resetByte_outside_table ha),
    fun j b hb => (Block.byteAt_resetWith c _).trans (resetByte_of_glyph hb)⟩

/-- Settles O18: the reset block is well formed for any parameters, the defaults among them. -/
theorem resetWellFormed : Obligations.ResetWellFormed :=
  ⟨Block.resetWith_wf defaults, Block.resetWith_wf⟩

/-! ## LOAD -/

/-- Bytes written one after the other lie in their places. -/
theorem Memory.read_writeBytes_inside (c : Config) (m : Memory) (a : Nat) {bs : List Byte} {j : Nat} {b : Byte}
    (h : bs[j]? = some b) : Memory.read c (Memory.writeBytes c m a bs) (a + j) = b := by
  simp [Memory.read_writeBytes, h]

/-- Bytes written one after the other change no address outside theirs. -/
theorem Memory.read_writeBytes_outside (c : Config) (m : Memory) {a a' : Nat} {bs : List Byte}
    (h : a' < a ∨ a + bs.length ≤ a') : Memory.read c (Memory.writeBytes c m a bs) a' = Memory.read c m a' := by
  rw [Memory.read_writeBytes]
  split
  · rw [List.getElem?_eq_none (by omega), Option.getD_none]
  · rfl

/-- An image that fits is written at `LOAD_BASE` (70_reset_and_hazards.md R254). -/
theorem hostLoad_of_fits {c : Config} {image : List Byte} (s : Block) (h : image.length ≤ c.maxImage) :
    hostLoad c image s = ({ s with mem := Memory.writeBytes c s.mem c.loadBase image }, .accepted) := if_pos h

/-- An image that does not fit is rejected whole (70_reset_and_hazards.md R255). -/
theorem hostLoad_of_too_long {c : Config} {image : List Byte} (s : Block) (h : c.maxImage < image.length) :
    hostLoad c image s = (s, .rejected) := if_neg (Nat.not_le.mpr h)

/-- A STEP ends the time in which LOAD is legal. -/
theorem transact_step_not_loadable {c : Config} {r : Byte} {σ σ' : Session} {rep : Report}
    (h : transact c (.step r) σ = .next (σ', rep)) : σ'.loadable = false := by
  simp only [transact] at h
  split at h <;> cases h
  rfl

/-- Settles O59: an image that fits by the law on a run of writes; the order of LOAD by the transactions' own cases. -/
theorem loadWritesImage : Obligations.LoadWritesImage := by
  unfold Obligations.LoadWritesImage
  intro c image s
  refine ⟨fun hfits => ⟨_, hostLoad_of_fits s hfits, fun j b hb => ?_, fun a ha => ?_, rfl⟩,
    hostLoad_of_too_long s, rfl, rfl, fun _ => rfl, fun _ _ _ _ => transact_step_not_loadable⟩
  · exact Memory.read_writeBytes_inside c s.mem c.loadBase hb
  · exact Memory.read_writeBytes_outside c s.mem ha

end Sys2Proof.Machine
end
